-- ==== Sys2Proof/Config.lean ====
section
/-! DEFINITION. The parameters of the engine. Every one is fixed by the spec and none is left to an implementation
(`00_scope.md` R6, R7), and no behaviour of the engine is an open value (`93_implementation_defined.md`, end of part 1), so
this file holds numbers only: there is no free value and no implementation-defined field. -/

namespace Sys2Proof.Config

/-- `W`: the width in bits of the divisor, the dividend, the multiplier and the quotient (R6). -/
def W : Nat := 64

/-- `WW`: the width of the numerator of the construction division and of the intermediate product (R6). -/
def WW : Nat := 128

/-- The length of a command word in bits; the engine has one command length (R7, R40). -/
def commandBits : Nat := 72

/-- The length of a response word in bits (R7, R42). -/
def responseBits : Nat := 72

end Sys2Proof.Config
end

