-- ==== Sys2Proof/Word.lean ====
section
/-! DEFINITION. The bit-vector types of the engine. All values are unsigned (`00_scope.md` R8). The 64-bit arithmetic of
`40_units.md` R62 is `BitVec`'s own `+`, `-`, `*`, which wrap modulo 2^64. -/

namespace Sys2Proof

/-- A 64-bit unsigned value: a divisor, a dividend, a multiplier, a quotient (`00_scope.md` R6). -/
abbrev Word := BitVec 64

/-- A shift amount, 0 to 63 (`10_state.md` R16). -/
abbrev ShiftAmount := BitVec 6

/-- A value held in the 128 bits of the construction division (`40_units.md` R60). -/
abbrev WideWord := BitVec 128

/-- A command word: `op` in bits 71:64, `arg` in bits 63:0 (`30_encoding.md` R40). -/
abbrev CommandWord := BitVec 72

/-- A response word: `status` in bits 71:64, `data` in bits 63:0 (`30_encoding.md` R42). -/
abbrev ResponseWord := BitVec 72

end Sys2Proof
end

