-- ==== Sys2Proof/Syntax.lean ====
section
/-! DEFINITION. The seven commands of the opcode map (`30_encoding.md` R44, R47), one constructor per row of
`opcode_table.json`. -/

namespace Sys2Proof

/-- A legal command with its operand (`30_encoding.md` R47). -/
inductive Instr where
  /-- `FDNEW D`: construct the descriptor of the divisor `d` (`41_construct.md` R70). -/
  | fdnew (d : Word)
  /-- `FDDIV N`: divide the dividend `n` by the descriptor's divisor (`42_apply.md` R90). -/
  | fddiv (n : Word)
  /-- `FDRD.DIVISOR` (`43_readback.md` R105). -/
  | fdrdDivisor
  /-- `FDRD.MULT` (`43_readback.md` R106). -/
  | fdrdMult
  /-- `FDRD.SHIFT` (`43_readback.md` R107). -/
  | fdrdShift
  /-- `FDRD.ADD` (`43_readback.md` R108). -/
  | fdrdAdd
  /-- `FDRD.STATUS` (`43_readback.md` R109). -/
  | fdrdStatus
deriving DecidableEq, Repr

end Sys2Proof
end

