-- ==== Sys2Proof/WellFormed.lean ====
section
/-! DEFINITION. Which commands and which command words are well formed. -/

namespace Sys2Proof

/-- Well-formed commands. Every one is: the operand of `FDNEW` and of `FDDIV` may be any 64-bit value (`30_encoding.md` R44,
`41_construct.md` R88), its type already bounds it, and the selector of a read-back is fixed by its mnemonic (R45). -/
def Instr.wf : Instr → Bool
  | .fdnew _ => true
  | .fddiv _ => true
  | .fdrdDivisor => true
  | .fdrdMult => true
  | .fdrdShift => true
  | .fdrdAdd => true
  | .fdrdStatus => true

/-- Well-formed command words, from the list of illegal words in `30_encoding.md` R46: `op` is 0x01 or 0x02 with any `arg`,
or `op` is 0x03 and `arg` is below 5. It is written on the word as a number, apart from the decoder, so that the two can be
compared. -/
def wordWf (w : CommandWord) : Bool :=
  let op := w.toNat / 2 ^ Config.W
  let arg := w.toNat % 2 ^ Config.W
  op == 1 || op == 2 || (op == 3 && decide (arg < 5))

end Sys2Proof
end

