-- ==== Sys2Proof/Decode.lean ====
section
/-! DEFINITION. Decoding a command word (`30_encoding.md` R40, R41, R44 to R48), the opcode map as match and mask rows, and
the encoder. Decoding is total, does not depend on the state, and names the words it rejects `illegal`. -/

namespace Sys2Proof

/-- `op`, bits 71:64 of a command word (R40). -/
def opField (w : CommandWord) : BitVec 8 := w.extractLsb' 64 8

/-- `arg`, bits 63:0 of a command word, taken as it stands (R40, R41). -/
def argField (w : CommandWord) : Word := w.extractLsb' 0 64

/-- What a command word decodes to: a legal command, or `ILLEGAL` (R47). -/
inductive Command where
  | legal (i : Instr)
  | illegal
deriving DecidableEq, Repr

/-- The read-back that the selector `arg` of `op = 0x03` names; the whole 64-bit `arg` takes part in the match (R45). -/
def decodeSelector (arg : Word) : Command :=
  if arg = 0#64 then .legal .fdrdDivisor
  else if arg = 1#64 then .legal .fdrdMult
  else if arg = 2#64 then .legal .fdrdShift
  else if arg = 3#64 then .legal .fdrdAdd
  else if arg = 4#64 then .legal .fdrdStatus
  else .illegal

/-- The decoder (R47). -/
def decode (w : CommandWord) : Command :=
  if opField w = 0x01#8 then .legal (.fdnew (argField w))
  else if opField w = 0x02#8 then .legal (.fddiv (argField w))
  else if opField w = 0x03#8 then decodeSelector (argField w)
  else .illegal

/-- The opcode of a command (R44). -/
def Instr.opcode : Instr → BitVec 8
  | .fdnew _ => 0x01#8
  | .fddiv _ => 0x02#8
  | .fdrdDivisor => 0x03#8
  | .fdrdMult => 0x03#8
  | .fdrdShift => 0x03#8
  | .fdrdAdd => 0x03#8
  | .fdrdStatus => 0x03#8

/-- The `arg` of a command: the operand, or the field selector of a read-back (R41, R45). -/
def Instr.argument : Instr → Word
  | .fdnew d => d
  | .fddiv n => n
  | .fdrdDivisor => 0#64
  | .fdrdMult => 1#64
  | .fdrdShift => 2#64
  | .fdrdAdd => 3#64
  | .fdrdStatus => 4#64

/-- The encoder, `{op, arg}` (R47). -/
def encode (i : Instr) : CommandWord := i.opcode ++ i.argument

/-- The mnemonic of a command, as the opcode map spells it (R44). -/
def Instr.mnemonic : Instr → String
  | .fdnew _ => "FDNEW"
  | .fddiv _ => "FDDIV"
  | .fdrdDivisor => "FDRD.DIVISOR"
  | .fdrdMult => "FDRD.MULT"
  | .fdrdShift => "FDRD.SHIFT"
  | .fdrdAdd => "FDRD.ADD"
  | .fdrdStatus => "FDRD.STATUS"

/-- A row of the opcode map as match and mask over the 72-bit word (R44). -/
structure OpcodeRow where
  mnemonic : String
  pattern : CommandWord
  mask : CommandWord
deriving DecidableEq, Repr

/-- A word selects a row when `w AND mask == match` (R44). -/
def OpcodeRow.selects (r : OpcodeRow) (w : CommandWord) : Bool := w &&& r.mask == r.pattern

/-- The opcode map, in its order (R44). -/
def opcodeTable : List OpcodeRow :=
  [ ⟨"FDNEW",        0x010000000000000000#72, 0xFF0000000000000000#72⟩,
    ⟨"FDDIV",        0x020000000000000000#72, 0xFF0000000000000000#72⟩,
    ⟨"FDRD.DIVISOR", 0x030000000000000000#72, 0xFFFFFFFFFFFFFFFFFF#72⟩,
    ⟨"FDRD.MULT",    0x030000000000000001#72, 0xFFFFFFFFFFFFFFFFFF#72⟩,
    ⟨"FDRD.SHIFT",   0x030000000000000002#72, 0xFFFFFFFFFFFFFFFFFF#72⟩,
    ⟨"FDRD.ADD",     0x030000000000000003#72, 0xFFFFFFFFFFFFFFFFFF#72⟩,
    ⟨"FDRD.STATUS",  0x030000000000000004#72, 0xFFFFFFFFFFFFFFFFFF#72⟩ ]

/-- The mnemonics of the rows a word selects. -/
def selectedRows (w : CommandWord) : List String :=
  (opcodeTable.filter (fun r => r.selects w)).map (fun r => r.mnemonic)

/-- The command of a decoded word, if it is legal. -/
def Command.instr? : Command → Option Instr
  | .legal i => some i
  | .illegal => none

/-- The command word whose low `nbits` bits are `w`'s and whose other bits are 0 (log entry 5). The engine has one word per
command, so the table's bit 0 is bit 0 of that word. -/
def tableWord (nbits w : Nat) : CommandWord := BitVec.ofNat 72 (w % 2 ^ nbits)

/-- The command the decoder reads from a table word of `nbits` bits; a word longer than a command is none (log entry 5). -/
def decodeTableWord (nbits w : Nat) : Option Instr :=
  if nbits ≤ Config.commandBits then (decode (tableWord nbits w)).instr? else none

end Sys2Proof
end

