-- ==== Sys2Proof/Machine/State.lean ====
section
/-! DEFINITION. The state of the engine as plain data, its faults and responses, and the state right after reset. -/

namespace Sys2Proof.Machine

/-- The engine's faults: exactly the three of `60_exceptions.md` R112 and R117. A fault of the engine is not a stop: it leaves
a next state with `ERR` set and its code in the response (R119, R121, R123). So no step of this model ends in the outcome
`fault`; these names travel in the responses. -/
inductive Fault where
  /-- Code 0x01. Raised by `FDNEW 0` (R113) as a next state; safe, since the run goes on exactly as the spec says. -/
  | invalidDivisor
  /-- Code 0x02. Raised by `FDDIV` and the four field read-backs when the slot is empty (R114) as a next state; safe. -/
  | noDescriptor
  /-- Code 0x03. Raised by a command word that decodes to no command (R115) as a next state; safe. -/
  | illegalCommand
deriving DecidableEq, Repr

/-- Why the model gives a command no meaning. -/
inductive Refusal where
  /-- Raised by an arm of `exec` that has no meaning yet, with the command's mnemonic; safe. No arm raises it: all seven
  commands have their meaning. -/
  | notModelled (mnemonic : String)
deriving DecidableEq, Repr

/-- The `status` of a response: success, or a fault. These are the four values of `60_exceptions.md` R112; the codes 0x04 to
0xFF are never produced. -/
inductive Status where
  | success
  | fault (f : Fault)
deriving DecidableEq, Repr

/-- A response (`30_encoding.md` R42). -/
structure Response where
  status : Status
  data : Word
deriving DecidableEq, Repr

/-- What the host can give the engine next: a command word, any of the 2^72 (`20_memory.md` R39), or an assertion of the
reset input, which atomic commands see as one more input symbol (`70_reset_and_hazards.md` R130). -/
inductive Input where
  | command (w : CommandWord)
  | reset
deriving DecidableEq, Repr

/-- The four descriptor registers, the attributes of the source's FastDivisor (`10_state.md` R13 to R17). -/
structure Descriptor where
  /-- `DIVISOR` (R14). -/
  divisor : Word
  /-- `MULT`; 0 marks a power-of-two divisor (R15). -/
  mult : Word
  /-- `SHIFT` (R16). -/
  shift : ShiftAmount
  /-- `ADD` (R17). -/
  add : Bool
deriving DecidableEq, Repr

/-- The engine's state tuple in the second form `10_state.md` R13 gives, `(ERR : Bool, desc : Option Descriptor)`, and the two
sequences of `20_memory.md` R34 that the step reads and extends. -/
structure State where
  /-- `ERR`, sticky (R19). -/
  err : Bool
  /-- The slot. `VALID` is 1 when it holds a descriptor; with `VALID = 0` the registers hold no value (R13, R18). -/
  desc : Option Descriptor
  /-- The model's own: the inputs the host has still to give, next one first (R34; log entry 2). -/
  pending : List Input
  /-- The model's own: the responses since the last reset, oldest first (R34, `70_reset_and_hazards.md` R134; log entry 3). -/
  responses : List Response
deriving DecidableEq, Repr

/-- The state right after reset: `VALID = 0`, `ERR = 0`, no value in the descriptor registers (`10_state.md` R25,
`70_reset_and_hazards.md` R131), nothing given and nothing answered. -/
def State.reset : State where
  err := false
  desc := none
  pending := []
  responses := []

end Sys2Proof.Machine
end

