-- ==== Sys2Proof/Machine/Flags.lean ====
section
/-! DEFINITION. The two flags of the engine, `VALID` and `ERR` (`10_state.md` R18, R19), how they are read and written, and the
status word they form (`43_readback.md` R109). `ADD` is a field of the descriptor and no condition code (R17). No command sets
a carry, overflow or zero flag (`42_apply.md` R90). -/

namespace Sys2Proof.Machine

/-- `VALID`: does the slot hold a descriptor? (R18) -/
def State.valid (s : State) : Bool := s.desc.isSome

/-- `ERR <- 1`, the only write of `ERR` but reset (R19). -/
def recordFault (s : State) : State := { s with err := true }

/-- `VALID <- 1` together with all four descriptor registers, in one step (R24). -/
def writeDescriptor (d : Descriptor) (s : State) : State := { s with desc := some d }

/-- `VALID <- 0`: the four registers then hold no value (R18). -/
def clearDescriptor (s : State) : State := { s with desc := none }

/-- The data of `FDRD.STATUS`: 62 zero bits, then `ERR`, then `VALID` (R109). -/
def statusData (s : State) : Word := (0#62 ++ BitVec.ofBool s.err) ++ BitVec.ofBool s.valid

end Sys2Proof.Machine
end

