-- ==== Sys2Proof/Machine/Ops.lean ====
section
/-! DEFINITION. The operations every command shares: answering, taking a fault, taking the next input, reset. The engine has
no memory, no register file and no program counter (`10_state.md` R20, R21; `20_memory.md` R29), so there is nothing else. -/

namespace Sys2Proof.Machine

/-- The outcome of a step of this machine. -/
abbrev Result := Host.Outcome State Fault Refusal

/-- A response leaves the engine, after every earlier one (`20_memory.md` R34). -/
def deliver (r : Response) (s : State) : State := { s with responses := s.responses ++ [r] }

/-- `respond(0x00, data)`: the command ends with success (`00_scope.md` R9, `30_encoding.md` R42). -/
def respond (data : Word) (s : State) : Result := .next (deliver { status := .success, data := data } s)

/-- What a fault does to the slot: `InvalidDivisor` empties it, the others leave it (`60_exceptions.md` R119). -/
def faultSlot (f : Fault) (s : State) : State :=
  match f with
  | .invalidDivisor => clearDescriptor s
  | .noDescriptor => s
  | .illegalCommand => s

/-- `raise F`: fault entry, the whole effect of the faulting command (R119). Nothing is saved and control goes nowhere; the
next state is an ordinary one and there is no return from a fault (R121). -/
def raise (f : Fault) (s : State) : Result :=
  .next (deliver { status := .fault f, data := 0#64 } (recordFault (faultSlot f s)))

/-- The code of a status (`60_exceptions.md` R112). -/
def Status.code : Status → BitVec 8
  | .success => 0x00#8
  | .fault .invalidDivisor => 0x01#8
  | .fault .noDescriptor => 0x02#8
  | .fault .illegalCommand => 0x03#8

/-- The response word, `status` above `data` (`30_encoding.md` R42). -/
def Response.word (r : Response) : ResponseWord := r.status.code ++ r.data

/-- The next input and the state that has taken it (`20_memory.md` R34). -/
def takeInput (s : State) : Option (Input × State) :=
  match s.pending with
  | [] => none
  | x :: rest => some (x, { s with pending := rest })

/-- No input is given: nothing happens (log entry 4). -/
def idle (s : State) : Result := .next s

/-- The reset input is asserted: nothing but what the host will still give survives, and there is no response
(`70_reset_and_hazards.md` R130 to R132). -/
def takeReset (s : State) : Result := .next { State.reset with pending := s.pending }

/-- A word that decodes to no command raises `IllegalCommand` (`60_exceptions.md` R115). -/
def takeIllegal (s : State) : Result := raise .illegalCommand s

/-- The host gives the word `w` next. -/
def placeCommand (w : CommandWord) (s : State) : State := { s with pending := .command w :: s.pending }

/-- The host will give the inputs `xs` after all it has said so far (`20_memory.md` R39). -/
def State.offer (s : State) (xs : List Input) : State := { s with pending := s.pending ++ xs }

end Sys2Proof.Machine
end

