-- ==== Sys2Proof/Machine/Operands.lean ====
section
/-! DEFINITION. Reading the operands that stand in the state. A command's own operand is its `arg`, already in its constructor
(`30_encoding.md` R41); the only operands in the state are the descriptor registers, guarded by `VALID` (`10_state.md` R18),
and the two one-field extensions `zext_64(SHIFT)` and `zext_64(ADD)` (R42). -/

namespace Sys2Proof.Machine

/-- Go on with the descriptor in the slot, or raise `NoDescriptor` when `VALID == 0` (`60_exceptions.md` R114). -/
def withDescriptor (s : State) (k : Descriptor → Result) : Result :=
  match s.desc with
  | none => raise .noDescriptor s
  | some d => k d

/-- `zext_64(SHIFT)` (`43_readback.md` R107). -/
def zextShift (s : ShiftAmount) : Word := s.setWidth 64

/-- `zext_64(ADD)` (`43_readback.md` R108). -/
def zextAdd (a : Bool) : Word := (BitVec.ofBool a).setWidth 64

end Sys2Proof.Machine
end

