-- ==== Sys2Proof/Machine/Units.lean ====
section
/-! DEFINITION. The datapath units as pure functions (`40_units.md` R55 to R63). `flog2`, `ispow2` and `wdiv` take the
hypothesis that their operand is not 0, since the spec gives them no value there (R66, `93_implementation_defined.md` U6). -/

namespace Sys2Proof.Machine

/-- Is the word 0? (R61) -/
def iszero (x : Word) : Bool := x == 0#64

/-- Unsigned less-than (R61). -/
def ltu (a b : Word) : Bool := decide (a.toNat < b.toNat)

/-- Unsigned at-least, `1 - ltu(a, b)` (R61). -/
def geu (a b : Word) : Bool := !ltu a b

theorem ne_zero_of_not_iszero {x : Word} (h : ¬ iszero x = true) : x ≠ 0#64 := by
  simpa [iszero] using h

/-- `trunc_64` (R62). -/
def trunc64 (v : WideWord) : Word := v.setWidth 64

/-- The bit-position detector: the position of the highest set bit, `floor(log2(d))` (R55). -/
def flog2 (d : Word) (_h : d ≠ 0#64) : ShiftAmount := BitVec.ofNat 6 d.toNat.log2

/-- The word `2^s`; it fits 64 bits because `s` is at most 63 (`41_construct.md` R76). -/
def pow2 (s : ShiftAmount) : Word := BitVec.ofNat 64 (2 ^ s.toNat)

/-- Is the word an exact power of two, `d == 2^flog2(d)`? (R56) -/
def ispow2 (d : Word) (h : d ≠ 0#64) : Bool := d == pow2 (flog2 d h)

/-- The multiplier-high unit: the upper 64 bits of the exact 128-bit product (R57). -/
def mulhi (a b : Word) : Word := BitVec.ofNat 64 (a.toNat * b.toNat / 2 ^ 64)

/-- The conditional adder (R58). -/
def cadd (n q : Word) (a : Bool) : Word :=
  if a then ((n - q) >>> 1) + q else q

/-- The barrel shifter: a logical right shift (R59). -/
def shr (x : Word) (s : ShiftAmount) : Word := x >>> s.toNat

/-- The two outputs of the wide divider (R60). -/
structure WideQuotient where
  quot : WideWord
  rem : Word
deriving DecidableEq, Repr

/-- The wide divider: quotient and remainder of `2^(64+L)` by `d` (R60). -/
def wdiv (l : ShiftAmount) (d : Word) (_h : d ≠ 0#64) : WideQuotient where
  quot := BitVec.ofNat 128 (2 ^ (64 + l.toNat) / d.toNat)
  rem := BitVec.ofNat 64 (2 ^ (64 + l.toNat) % d.toNat)

/-- The high multiply by four 32-bit partial products (R63). It is the spec's other realisation of `mulhi`; the commands use
`mulhi`. -/
def mulhiPartial (a b : Word) : Nat :=
  let a0 := a.toNat % 2 ^ 32
  let a1 := a.toNat / 2 ^ 32
  let b0 := b.toNat % 2 ^ 32
  let b1 := b.toNat / 2 ^ 32
  let ll := a0 * b0
  let hl := a1 * b0
  let lh := a0 * b1
  let hh := a1 * b1
  let cross := ll / 2 ^ 32 + hl % 2 ^ 32 + lh
  hl / 2 ^ 32 + cross / 2 ^ 32 + hh

end Sys2Proof.Machine
end

