-- ==== Sys2Proof/Machine/Apply.lean ====
section
/-! DEFINITION. Application: the meaning of `FDDIV` (`42_apply.md`). -/

namespace Sys2Proof.Machine

/-- The quotient the datapath computes from `MULT`, `SHIFT`, `ADD` and the dividend (R90, R91 to R94; `40_units.md` R67).
`DIVISOR` is not read. -/
def quotient (d : Descriptor) (n : Word) : Word :=
  if iszero d.mult then shr n d.shift
  else shr (cadd n (mulhi d.mult n) d.add) d.shift

/-- `FDDIV N` (R90, R95). -/
def execFddiv (n : Word) (s : State) : Result :=
  withDescriptor s (fun d => respond (quotient d n) s)

end Sys2Proof.Machine
end

