-- ==== Sys2Proof/Machine/Construct.lean ====
section
/-! DEFINITION. Construction: the meaning of `FDNEW` (`41_construct.md`), one definition per step of R70. -/

namespace Sys2Proof.Machine

/-- `(pm, rem)`, the candidate multiplier and its remainder (R74). -/
def candidate (d : Word) (h : d ≠ 0#64) : WideQuotient := wdiv (flog2 d h) d h

/-- `e`, the error term (R75). -/
def errorTerm (d : Word) (h : d ≠ 0#64) : Word := d - (candidate d h).rem

/-- Is the candidate exact enough, `e < 2^L`? The comparison is strict (R76, R85). -/
def candidateExact (d : Word) (h : d ≠ 0#64) : Bool := ltu (errorTerm d h) (pow2 (flog2 d h))

/-- `twice_rem`, the 64-bit doubling of the remainder (R77). -/
def twiceRem (rem : Word) : Word := rem * 2#64

/-- The test of the increment on the add path (R77). It never holds there (R78); it is kept because the source states it. -/
def incrementTest (rem d : Word) : Bool := geu (twiceRem rem) d || ltu (twiceRem rem) rem

/-- The doubled candidate of the add path, with its increment (R77). -/
def doubledCandidate (c : WideQuotient) (d : Word) : WideWord :=
  if incrementTest c.rem d then c.quot * 2#128 + 1#128 else c.quot * 2#128

/-- `m = trunc_64(pm + 1)` (R79). -/
def multiplierOf (pm : WideWord) : Word := trunc64 (pm + 1#128)

/-- The descriptor of a divisor that is not 0 (R70, R73, R76, R77, R79, R80). -/
def construct (d : Word) (h : d ≠ 0#64) : Descriptor :=
  if ispow2 d h then
    { divisor := d, mult := 0#64, shift := flog2 d h, add := false }
  else if candidateExact d h then
    { divisor := d, mult := multiplierOf (candidate d h).quot, shift := flog2 d h, add := false }
  else
    { divisor := d, mult := multiplierOf (doubledCandidate (candidate d h) d), shift := flog2 d h, add := true }

/-- `FDNEW D` (R70): a zero divisor raises `InvalidDivisor` before any unit is evaluated (R71). -/
def execFdnew (d : Word) (s : State) : Result :=
  if h : iszero d = true then raise .invalidDivisor s
  else respond 0#64 (writeDescriptor (construct d (ne_zero_of_not_iszero h)) s)

end Sys2Proof.Machine
end

