-- ==== Sys2Proof/Machine/ReadBack.lean ====
section
/-! DEFINITION. Descriptor read-back: the meanings of the five `FDRD` commands (`43_readback.md`). -/

namespace Sys2Proof.Machine

/-- `FDRD.DIVISOR` (R105). -/
def execFdrdDivisor (s : State) : Result := withDescriptor s (fun d => respond d.divisor s)

/-- `FDRD.MULT` (R106). -/
def execFdrdMult (s : State) : Result := withDescriptor s (fun d => respond d.mult s)

/-- `FDRD.SHIFT` (R107). -/
def execFdrdShift (s : State) : Result := withDescriptor s (fun d => respond (zextShift d.shift) s)

/-- `FDRD.ADD` (R108). -/
def execFdrdAdd (s : State) : Result := withDescriptor s (fun d => respond (zextAdd d.add) s)

/-- `FDRD.STATUS` (R109): it succeeds in every state. -/
def execFdrdStatus (s : State) : Result := respond (statusData s) s

end Sys2Proof.Machine
end

