-- ==== Sys2Proof/Machine/Dispatch.lean ====
section
/-! DEFINITION. One arm per command, each a direct call of its meaning. -/

namespace Sys2Proof.Machine

def exec (i : Instr) (s : State) : Host.Outcome State Fault Refusal :=
  match i with
  | .fdnew d => Sys2Proof.Machine.execFdnew d s
  | .fddiv n => Sys2Proof.Machine.execFddiv n s
  | .fdrdDivisor => Sys2Proof.Machine.execFdrdDivisor s
  | .fdrdMult => Sys2Proof.Machine.execFdrdMult s
  | .fdrdShift => Sys2Proof.Machine.execFdrdShift s
  | .fdrdAdd => Sys2Proof.Machine.execFdrdAdd s
  | .fdrdStatus => Sys2Proof.Machine.execFdrdStatus s

end Sys2Proof.Machine
end

