-- ==== Sys2Proof/Machine/Step.lean ====
section
/-! DEFINITION. One step of the machine (`20_memory.md` R34): take the host's next input and answer it. -/

namespace Sys2Proof.Machine

/-- The engine takes its next input, decodes it (`30_encoding.md` R47) and runs it; decode comes before everything else
(`60_exceptions.md` R118). -/
def step (s : State) : Host.Outcome State Fault Refusal :=
  match takeInput s with
  | none => idle s
  | some (.reset, t) => takeReset t
  | some (.command w, t) =>
    match decode w with
    | .legal i => exec i t
    | .illegal => takeIllegal t

/-- The state whose next step takes the table word `w` of `nbits` bits as its command (log entries 2 and 5). -/
def State.withFetchWord (s : State) (nbits w : Nat) : State := placeCommand (tableWord nbits w) s

end Sys2Proof.Machine
end

