-- ==== Sys2Proof/Machine/Assembler.lean ====
section
/-! DEFINITION. The notation in which command streams are written (`30_encoding.md` R49) with its one pseudo-instruction
(R50). It is no part of the engine: it turns text into the command words that the engine takes. Text is a list of characters.
What R49 and R50 leave open about spacing, letter case and the spelling of numbers is DESIGN CHOICE, log entry 6. -/

namespace Sys2Proof.Machine

/-- `<u64>`: a numeral, or an expression standing for a number (R49). -/
inductive NumExpr where
  | num (n : Nat)
  | pow (k : Nat)
  | powMinus (k c : Nat)
  | powPlus (k c : Nat)
deriving DecidableEq, Repr

/-- One line of a command stream (R49); `fdrd k` is the pseudo-instruction `FDRD <k>` (R50). -/
inductive AsmLine where
  | fdnew (e : NumExpr)
  | fddiv (e : NumExpr)
  | fdrdDivisor
  | fdrdMult
  | fdrdShift
  | fdrdAdd
  | fdrdStatus
  | fdrd (k : Nat)
  | word (n : Nat)
deriving DecidableEq, Repr

/-- The number an expression stands for; a difference below 0 is none. -/
def NumExpr.value : NumExpr → Option Nat
  | .num n => some n
  | .pow k => some (2 ^ k)
  | .powMinus k c => if c ≤ 2 ^ k then some (2 ^ k - c) else none
  | .powPlus k c => some (2 ^ k + c)

/-- The 64-bit operand of an expression, which must stand for a number in 0 to 2^64 - 1 (R49). -/
def NumExpr.operand (e : NumExpr) : Option Word :=
  match e.value with
  | some n => if n < 2 ^ 64 then some (BitVec.ofNat 64 n) else none
  | none => none

/-- Well-formed lines: the operand of `FDNEW` and `FDDIV` fits 64 bits, `k` is 0 to 4, a `.word` fits 72 bits (R49, R50). -/
def AsmLine.wf : AsmLine → Bool
  | .fdnew e => e.operand.isSome
  | .fddiv e => e.operand.isSome
  | .fdrdDivisor => true
  | .fdrdMult => true
  | .fdrdShift => true
  | .fdrdAdd => true
  | .fdrdStatus => true
  | .fdrd k => decide (k ≤ 4)
  | .word n => decide (n < 2 ^ 72)

/-- The read-back whose selector is `k` (R50). -/
def readBackOf : Nat → Option Instr
  | 0 => some .fdrdDivisor
  | 1 => some .fdrdMult
  | 2 => some .fdrdShift
  | 3 => some .fdrdAdd
  | 4 => some .fdrdStatus
  | _ => none

/-- The command word of a line, if the line is well formed (R49, R50). DESIGN CHOICE (log entry 6): R49 does not say whether
`.word` needs all 18 digits; any value below 2^72 fills the word with zeros above. -/
def AsmLine.commandWord : AsmLine → Option CommandWord
  | .fdnew e => e.operand.map (fun d => encode (.fdnew d))
  | .fddiv e => e.operand.map (fun n => encode (.fddiv n))
  | .fdrdDivisor => some (encode .fdrdDivisor)
  | .fdrdMult => some (encode .fdrdMult)
  | .fdrdShift => some (encode .fdrdShift)
  | .fdrdAdd => some (encode .fdrdAdd)
  | .fdrdStatus => some (encode .fdrdStatus)
  | .fdrd k => (readBackOf k).map encode
  | .word n => if n < 2 ^ 72 then some (BitVec.ofNat 72 n) else none

/-- The value of a digit in a base of at most 16, in either letter case. -/
def digitValue (base : Nat) (c : Char) : Option Nat :=
  let n := c.toNat
  let v := if 48 ≤ n ∧ n ≤ 57 then n - 48
    else if 65 ≤ n ∧ n ≤ 70 then n - 55
    else if 97 ≤ n ∧ n ≤ 102 then n - 87
    else base
  if v < base then some v else none

/-- The number a row of digits spells, going on from `acc`; `_` may stand among hexadecimal digits (`00_scope.md` R8). -/
def digitsFrom (base acc : Nat) : List Char → Option Nat
  | [] => some acc
  | c :: cs =>
    if base = 16 ∧ c = '_' then digitsFrom base acc cs
    else
      match digitValue base c with
      | some v => digitsFrom base (acc * base + v) cs
      | none => none

/-- A row of digits with at least one digit, the first character among them. -/
def digits (base : Nat) : List Char → Option Nat
  | [] => none
  | c :: cs =>
    match digitValue base c with
    | some v => digitsFrom base v cs
    | none => none

/-- A decimal numeral or a `0x` hexadecimal numeral (R49). Leading zeros and the lower-case `x`: DESIGN CHOICE, log entry 6. -/
def numeral : List Char → Option Nat
  | '0' :: 'x' :: cs => digits 16 cs
  | cs => digits 10 cs

/-- The hexadecimal operand of `.word` (R49, `95_test_vectors.md`). DESIGN CHOICE (log entry 6): it may have a `0x`, and any
number of digits from one on. -/
def hexNumeral : List Char → Option Nat
  | '0' :: 'x' :: cs => digits 16 cs
  | cs => digits 16 cs

/-- The exponent of a token `2^k`. DESIGN CHOICE (log entry 6): R49 does not say how `k` is spelled; it is decimal only. -/
def powerToken : List Char → Option Nat
  | '2' :: '^' :: cs => digits 10 cs
  | _ => none

/-- `2^k - c` or `2^k + c`. -/
def sumExpr (k : Nat) (sign : List Char) (c : Nat) : Option NumExpr :=
  if sign = ['-'] then some (.powMinus k c)
  else if sign = ['+'] then some (.powPlus k c)
  else none

/-- A `<u64>` operand from its tokens (R49). DESIGN CHOICE (log entry 6): R49 does not say how `c` of `2^k - c` and `2^k + c` is
spelled; it is decimal or `0x` hexadecimal. -/
def parseExpr : List (List Char) → Option NumExpr
  | [t] =>
    match powerToken t with
    | some k => some (.pow k)
    | none => (numeral t).map .num
  | [t, sign, c] =>
    match powerToken t, numeral c with
    | some k, some c => sumExpr k sign c
    | _, _ => none
  | _ => none

/-- The tokens of a line whose current token so far is `cur`: blanks separate tokens, and `+` and `-` stand alone. -/
def tokensFrom (cur : List Char) : List Char → List (List Char)
  | [] => if cur = [] then [] else [cur]
  | c :: cs =>
    let done := if cur = [] then [] else [cur]
    if c = ' ' ∨ c = '\t' then done ++ tokensFrom [] cs
    else if c = '+' ∨ c = '-' then done ++ [c] :: tokensFrom [] cs
    else tokensFrom (cur ++ [c]) cs

/-- The tokens of a line; `;` starts a comment (R49). -/
def tokens (line : List Char) : List (List Char) := tokensFrom [] (line.takeWhile (fun c => c != ';'))

def kwFdnew : List Char := ['F', 'D', 'N', 'E', 'W']
def kwFddiv : List Char := ['F', 'D', 'D', 'I', 'V']
def kwFdrd : List Char := ['F', 'D', 'R', 'D']
def kwFdrdDivisor : List Char := ['F', 'D', 'R', 'D', '.', 'D', 'I', 'V', 'I', 'S', 'O', 'R']
def kwFdrdMult : List Char := ['F', 'D', 'R', 'D', '.', 'M', 'U', 'L', 'T']
def kwFdrdShift : List Char := ['F', 'D', 'R', 'D', '.', 'S', 'H', 'I', 'F', 'T']
def kwFdrdAdd : List Char := ['F', 'D', 'R', 'D', '.', 'A', 'D', 'D']
def kwFdrdStatus : List Char := ['F', 'D', 'R', 'D', '.', 'S', 'T', 'A', 'T', 'U', 'S']
def kwWord : List Char := ['.', 'w', 'o', 'r', 'd']

/-- A line that is a mnemonic alone. -/
def parseReadBack (m : List Char) : Option AsmLine :=
  if m = kwFdrdDivisor then some .fdrdDivisor
  else if m = kwFdrdMult then some .fdrdMult
  else if m = kwFdrdShift then some .fdrdShift
  else if m = kwFdrdAdd then some .fdrdAdd
  else if m = kwFdrdStatus then some .fdrdStatus
  else none

/-- A line from its tokens (R49, R50). DESIGN CHOICE (log entry 6): R50 does not say how `k` of `FDRD <k>` is spelled; it is
decimal or `0x` hexadecimal. -/
def parseTokens : List (List Char) → Option AsmLine
  | [] => none
  | [m] => parseReadBack m
  | m :: t :: ts =>
    if m = kwFdnew then (parseExpr (t :: ts)).map .fdnew
    else if m = kwFddiv then (parseExpr (t :: ts)).map .fddiv
    else if m = kwFdrd ∧ ts = [] then (numeral t).map .fdrd
    else if m = kwWord ∧ ts = [] then (hexNumeral t).map .word
    else none

/-- The command words of a command stream, one command a line; a line with nothing but blanks and comment is passed over, and
a line that is no command makes the whole none (R49). -/
def assemble : List (List Char) → Option (List CommandWord)
  | [] => some []
  | line :: lines =>
    match tokens line with
    | [] => assemble lines
    | ts =>
      match (parseTokens ts).bind AsmLine.commandWord, assemble lines with
      | some w, some ws => some (w :: ws)
      | _, _ => none

end Sys2Proof.Machine
end

