-- ==== Sys2Proof/Safety.lean ====
section
/-! DEFINITION. What the spec promises of the engine, in the terms claims use: read-only commands, clean runs, and the
invariants of the descriptor and of `ERR`. -/

namespace Sys2Proof.Machine

/-- The commands that read the slot and never write it: `FDDIV` and the `FDRD` commands (`20_memory.md` R38). -/
def readOnly : Instr → Bool
  | .fdnew _ => false
  | .fddiv _ => true
  | .fdrdDivisor => true
  | .fdrdMult => true
  | .fdrdShift => true
  | .fdrdAdd => true
  | .fdrdStatus => true

/-- A run is clean when its final `ERR` is 0 (`70_reset_and_hazards.md` R134). -/
def clean (s : State) : Bool := !s.err

/-- `2^(64+S) mod D` and `2^S` for a divisor `D`, where `S = flog2(D)`: the condition `D - (2^(64+S) mod D) < 2^S` that
separates the last two rows of the table in `10_state.md` R27. -/
def noAddCondition (divisor shift : Nat) : Prop :=
  divisor - 2 ^ (64 + shift) % divisor < 2 ^ shift

/-- The row "power of two" of the table in R27. -/
def Descriptor.powerRow (d : Descriptor) : Prop :=
  d.divisor.toNat = 2 ^ d.shift.toNat ∧ d.add = false ∧ d.mult = 0#64

/-- The row "no-add" of the table in R27. -/
def Descriptor.noAddRow (d : Descriptor) : Prop :=
  2 ^ d.shift.toNat < d.divisor.toNat ∧ d.divisor.toNat < 2 ^ (d.shift.toNat + 1) ∧
  noAddCondition d.divisor.toNat d.shift.toNat ∧
  1 ≤ d.shift.toNat ∧ d.add = false ∧
  d.mult.toNat = 2 ^ (64 + d.shift.toNat) / d.divisor.toNat + 1 ∧ 2 ^ 63 + 1 ≤ d.mult.toNat

/-- The row "add" of the table in R27. -/
def Descriptor.addRow (d : Descriptor) : Prop :=
  2 ^ d.shift.toNat < d.divisor.toNat ∧ d.divisor.toNat < 2 ^ (d.shift.toNat + 1) ∧
  ¬ noAddCondition d.divisor.toNat d.shift.toNat ∧
  1 ≤ d.shift.toNat ∧ d.add = true ∧
  d.mult.toNat + 2 ^ 64 = 2 ^ (65 + d.shift.toNat) / d.divisor.toNat + 1 ∧
  d.mult.toNat % 2 = 1 ∧ d.mult.toNat ≤ 2 ^ 64 - 3

/-- The descriptors `10_state.md` R27 calls reachable. -/
def Descriptor.Tabled (d : Descriptor) : Prop := d.powerRow ∨ d.noAddRow ∨ d.addRow

/-- The descriptor divides every dividend exactly (`10_state.md` R26, `42_apply.md` R98). -/
def Descriptor.Exact (d : Descriptor) : Prop :=
  ∀ n : Word, (quotient d n).toNat = n.toNat / d.divisor.toNat

/-- Whatever descriptor the slot holds is one of R27's table. -/
def State.TabledInv (s : State) : Prop := ∀ d, s.desc = some d → d.Tabled

/-- Whatever descriptor the slot holds has a divisor that is not 0 and divides exactly (R14, R26). -/
def State.ExactInv (s : State) : Prop := ∀ d, s.desc = some d → d.divisor ≠ 0#64 ∧ d.Exact

/-- `ERR` is 1 exactly when some response since the last reset had a status other than success (`10_state.md` R19,
`70_reset_and_hazards.md` R134). -/
def State.ErrInv (s : State) : Prop := s.err = true ↔ ∃ r ∈ s.responses, r.status ≠ Status.success

end Sys2Proof.Machine
end

