-- ==== Sys2Proof/Certificates/Slice0/Obligations.lean ====
section
/-! DEFINITION. The statements about the engine, one per definition. Where a statement writes a next state as a record update,
the update names everything that changes: every field it does not name is unchanged. Where a docstring says that
the spec marks a point as its own inference, the rule carries the mark [derived] there and the statement's basis is derived.
The fields `pending` and `responses` are the model's own (log entries 2 and 3); what a command appends to `responses` is the
response `r_k` of `20_memory.md` R34. -/

open Sys2Proof Sys2Proof.Machine

/-! ## Encoding -/

/-- `30_encoding.md` R47: `encode` is `{op, arg}`, and `decode` and `encode` are inverse to each other. The spec marks the
inversion as its own inference from the opcode map ([derived]). -/
def Obligations.EncodeDecodeInverse : Prop :=
  (∀ i : Instr, decode (encode i) = .legal i) ∧
  (∀ (w : CommandWord) (i : Instr), decode w = .legal i → encode i = w) ∧
  (∀ d : Word, encode (.fdnew d) = 0x01#8 ++ d) ∧
  (∀ n : Word, encode (.fddiv n) = 0x02#8 ++ n) ∧
  encode .fdrdDivisor = 0x03#8 ++ 0#64 ∧ encode .fdrdMult = 0x03#8 ++ 1#64 ∧
  encode .fdrdShift = 0x03#8 ++ 2#64 ∧ encode .fdrdAdd = 0x03#8 ++ 3#64 ∧
  encode .fdrdStatus = 0x03#8 ++ 4#64

/-- R44: the match and mask rows select exactly the row of the decoded command, and no two rows overlap. -/
def Obligations.OpcodeRowsSelectDecodedCommand : Prop :=
  ∀ w : CommandWord, selectedRows w =
    match decode w with
    | .legal i => [i.mnemonic]
    | .illegal => []

/-- R46: which words are illegal, and what each of them does as the next command in any state. -/
def Obligations.IllegalWordsFault : Prop :=
  (∀ w : CommandWord, decode w = .illegal ↔
    (opField w = 0x00#8 ∨ 0x04 ≤ (opField w).toNat ∨ (opField w = 0x03#8 ∧ 5 ≤ (argField w).toNat))) ∧
  (∀ w : CommandWord, decode w = .illegal ↔ wordWf w = false) ∧
  decode 0#72 = .illegal ∧ decode (BitVec.allOnes 72) = .illegal ∧
  Response.word { status := .fault .illegalCommand, data := 0#64 } = 0x03#8 ++ 0#64 ∧
  ∀ (s : State) (w : CommandWord) (rest : List Input), s.pending = .command w :: rest → decode w = .illegal →
    step s = .next { s with
      err := true
      pending := rest
      responses := s.responses ++ [{ status := .fault .illegalCommand, data := 0#64 }] }

/-- Words written out from the encoding of R40 and R44 decode to the commands they stand for. -/
def Obligations.SpecWordsDecode : Prop :=
  decode 0x010000000000000007#72 = .legal (.fdnew 7#64) ∧
  decode 0x01FFFFFFFFFFFFFFFF#72 = .legal (.fdnew 0xFFFFFFFFFFFFFFFF#64) ∧
  decode 0x020000000000000064#72 = .legal (.fddiv 100#64) ∧
  decode 0x030000000000000000#72 = .legal .fdrdDivisor ∧
  decode 0x030000000000000001#72 = .legal .fdrdMult ∧
  decode 0x030000000000000002#72 = .legal .fdrdShift ∧
  decode 0x030000000000000003#72 = .legal .fdrdAdd ∧
  decode 0x030000000000000004#72 = .legal .fdrdStatus ∧
  decode 0x038000000000000004#72 = .illegal

/-- `30_encoding.md` R42: the response word holds the status code above the data, and no two responses share a word. -/
def Obligations.ResponseWordHoldsStatusAndData : Prop :=
  (∀ r : Response, r.word.extractLsb' 64 8 = r.status.code ∧ r.word.extractLsb' 0 64 = r.data) ∧
  (∀ r q : Response, r.word = q.word → r = q)

/-- `30_encoding.md` R50: `FDRD <k>` is the word of the read-back whose selector is `k`, for `k` in 0 to 4 and no other. -/
def Obligations.PseudoReadBackIsSameWord : Prop :=
  (AsmLine.fdrd 0).commandWord = AsmLine.fdrdDivisor.commandWord ∧
  (AsmLine.fdrd 1).commandWord = AsmLine.fdrdMult.commandWord ∧
  (AsmLine.fdrd 2).commandWord = AsmLine.fdrdShift.commandWord ∧
  (AsmLine.fdrd 3).commandWord = AsmLine.fdrdAdd.commandWord ∧
  (AsmLine.fdrd 4).commandWord = AsmLine.fdrdStatus.commandWord ∧
  ∀ k, 5 ≤ k → (AsmLine.fdrd k).commandWord = none

/-- R49: a line has a command word exactly when it is well formed; the word of every line but `.word` is legal, and that of
`FDNEW` and `FDDIV` holds the number its expression stands for. -/
def Obligations.AssemblerLineWords : Prop :=
  (∀ l : AsmLine, l.wf = true ↔ ∃ w, l.commandWord = some w) ∧
  (∀ (l : AsmLine) (w : CommandWord), l.commandWord = some w → (∀ n, l ≠ .word n) → ∃ i, decode w = .legal i) ∧
  (∀ (e : NumExpr) (n : Nat), e.value = some n → n < 2 ^ 64 →
    ∃ w v, (AsmLine.fdnew e).commandWord = some w ∧ decode w = .legal (.fdnew v) ∧ v.toNat = n) ∧
  (∀ (e : NumExpr) (n : Nat), e.value = some n → n < 2 ^ 64 →
    ∃ w v, (AsmLine.fddiv e).commandWord = some w ∧ decode w = .legal (.fddiv v) ∧ v.toNat = n)

/-! ## The step -/

/-- A word that decodes to a command is run by `exec` in the state that has taken it, and `withFetchWord` gives a table word
that way (log entries 2 and 5). -/
def Obligations.StepRunsDecodedCommand : Prop :=
  (∀ (s : State) (w : CommandWord) (rest : List Input) (i : Instr),
    s.pending = .command w :: rest → decode w = .legal i → step s = exec i { s with pending := rest }) ∧
  (∀ (s : State) (w : Nat) (i : Instr), decodeTableWord 72 w = some i → step (s.withFetchWord 72 w) = exec i s)

/-- Reset is one more input: it leaves the reset state and no response (`70_reset_and_hazards.md` R130). That the inputs the
host has still to give stay, and that the response list starts afresh, are the model's choices (log entries 2 and 3). -/
def Obligations.ResetInputLeavesResetState : Prop :=
  ∀ (s : State) (rest : List Input), s.pending = .reset :: rest →
    step s = .next { err := false, desc := none, pending := rest, responses := [] }

/-- With no input nothing happens; this is the model's reading (log entry 4). -/
def Obligations.NoInputNoChange : Prop :=
  ∀ s : State, s.pending = [] → step s = .next s

/-- `70_reset_and_hazards.md` R138 and `60_exceptions.md` R123: the step always answers with a next state, and so does every
command. -/
def Obligations.StepAlwaysAnswersNext : Prop :=
  (∀ s : State, ∃ t, step s = .next t) ∧ (∀ (i : Instr) (s : State), ∃ t, exec i s = .next t)

/-- `20_memory.md` R34: a command's response and its change of the state do not depend on later inputs. -/
def Obligations.LaterInputsDoNotMatter : Prop :=
  ∀ (s : State) (x : Input), ∃ t : State, ∀ rest : List Input,
    step { s with pending := x :: rest } = .next { t with pending := rest }

/-- R34: a stream of any command words is taken in order, with exactly one response per command, in issue order: the response
to `c_k` is the one the step gives in the state the earlier commands left. -/
def Obligations.CommandStreamAnsweredInOrder : Prop :=
  ∀ (ws : List CommandWord) (s : State) (rest : List Input), s.pending = ws.map .command ++ rest →
    ∃ (t : State) (rs : List Response), Host.Core.run Sys2Proof.core ws.length s = .next t ∧
      t.pending = rest ∧ t.responses = s.responses ++ rs ∧ rs.length = ws.length ∧
      ∀ k, k < ws.length → ∃ u : State, Host.Core.run Sys2Proof.core (k + 1) s = .next u ∧
        u.pending = (ws.drop (k + 1)).map .command ++ rest ∧ u.responses = s.responses ++ rs.take (k + 1)

/-- `10_state.md` R25 and `70_reset_and_hazards.md` R131: the reset state, in which nothing can read the descriptor registers
and `FDDIV` gives no value. -/
def Obligations.ResetStateHasNoDescriptor : Prop :=
  State.reset.valid = false ∧ State.reset.err = false ∧ State.reset.desc = none ∧
  ∀ i : Instr, i = .fdrdDivisor ∨ i = .fdrdMult ∨ i = .fdrdShift ∨ i = .fdrdAdd ∨ (∃ n, i = .fddiv n) →
    exec i State.reset = .next { State.reset with
      err := true
      responses := [{ status := .fault .noDescriptor, data := 0#64 }] }

/-! ## Construction -/

/-- `41_construct.md` R71: a zero divisor, in any state; the response is `(0x01, 0)`. -/
def Obligations.FdnewZeroFaults : Prop :=
  Response.word { status := .fault .invalidDivisor, data := 0#64 } = 0x01#8 ++ 0#64 ∧
  ∀ s : State, exec (.fdnew 0#64) s = .next { s with
    desc := none
    err := true
    responses := s.responses ++ [{ status := .fault .invalidDivisor, data := 0#64 }] }

/-- R80: every other divisor is written with its three derived fields in one step, `ERR` and everything else unchanged. -/
def Obligations.FdnewWritesDescriptor : Prop :=
  ∀ (s : State) (d : Word) (h : d ≠ 0#64),
    exec (.fdnew d) s = .next { s with
      desc := some { divisor := d, mult := (construct d h).mult, shift := flog2 d h, add := (construct d h).add }
      responses := s.responses ++ [{ status := .success, data := 0#64 }] }

/-- R73: the power-of-two path, for each of the 64 powers. -/
def Obligations.FdnewPowerOfTwo : Prop :=
  ∀ (s : State) (k : ShiftAmount) (d : Word), d.toNat = 2 ^ k.toNat →
    exec (.fdnew d) s = .next { s with
      desc := some { divisor := d, mult := 0#64, shift := k, add := false }
      responses := s.responses ++ [{ status := .success, data := 0#64 }] }

/-- R76, R79: the no-add path. `MULT` is `floor(2^(64+L) / D) + 1`, which fits 64 bits. -/
def Obligations.FdnewNoAddPath : Prop :=
  ∀ (s : State) (d : Word) (l : ShiftAmount),
    2 ^ l.toNat < d.toNat → d.toNat < 2 ^ (l.toNat + 1) → d.toNat - 2 ^ (64 + l.toNat) % d.toNat < 2 ^ l.toNat →
    ∃ m : Word, m.toNat = 2 ^ (64 + l.toNat) / d.toNat + 1 ∧
      exec (.fdnew d) s = .next { s with
        desc := some { divisor := d, mult := m, shift := l, add := false }
        responses := s.responses ++ [{ status := .success, data := 0#64 }] }

/-- R77 to R79: the add path. `MULT` is `2 * floor(2^(64+L) / D) + 1` without its bit of weight 2^64, and that is
`floor(2^(65+L) / D) + 1 - 2^64`; `SHIFT` is the same `L`.
The spec marks this as its own inference ([derived]). -/
def Obligations.FdnewAddPath : Prop :=
  ∀ (s : State) (d : Word) (l : ShiftAmount),
    2 ^ l.toNat < d.toNat → d.toNat < 2 ^ (l.toNat + 1) → 2 ^ l.toNat ≤ d.toNat - 2 ^ (64 + l.toNat) % d.toNat →
    ∃ m : Word, m.toNat + 2 ^ 64 = 2 * (2 ^ (64 + l.toNat) / d.toNat) + 1 ∧
      m.toNat + 2 ^ 64 = 2 ^ (65 + l.toNat) / d.toNat + 1 ∧
      exec (.fdnew d) s = .next { s with
        desc := some { divisor := d, mult := m, shift := l, add := true }
        responses := s.responses ++ [{ status := .success, data := 0#64 }] }

/-- R84: `FDNEW` is a function of its divisor alone; it reads no state: what the slot becomes, the response, and whether `ERR`
is set depend on nothing else. -/
def Obligations.FdnewIsFunctionOfDivisor : Prop :=
  ∀ d : Word, ∃ (o : Option Descriptor) (r : Response) (f : Bool), ∀ s : State,
    exec (.fdnew d) s = .next { s with err := s.err || f, desc := o, responses := s.responses ++ [r] }

/-- R74: the candidate and its remainder, with their bounds.
The spec marks this as its own inference ([derived]). -/
def Obligations.CandidateBounds : Prop :=
  ∀ (d : Word) (h : d ≠ 0#64), ispow2 d h = false →
    (candidate d h).quot.toNat = 2 ^ (64 + (flog2 d h).toNat) / d.toNat ∧
    (candidate d h).rem.toNat = 2 ^ (64 + (flog2 d h).toNat) % d.toNat ∧
    2 ^ (flog2 d h).toNat < d.toNat ∧ d.toNat < 2 ^ ((flog2 d h).toNat + 1) ∧
    2 ^ 63 ≤ (candidate d h).quot.toNat ∧ (candidate d h).quot.toNat ≤ 2 ^ 64 - 2 ∧
    1 ≤ (candidate d h).rem.toNat ∧ (candidate d h).rem.toNat ≤ d.toNat - 1 ∧ 1 ≤ (flog2 d h).toNat

/-- R75: the error term does not wrap, and what it means.
The spec marks this as its own inference ([derived]). -/
def Obligations.ErrorTermMeaning : Prop :=
  ∀ (d : Word) (h : d ≠ 0#64), ispow2 d h = false →
    (errorTerm d h).toNat = d.toNat - (candidate d h).rem.toNat ∧
    1 ≤ (errorTerm d h).toNat ∧ (errorTerm d h).toNat ≤ d.toNat - 1 ∧
    ((candidate d h).quot.toNat + 1) * d.toNat = 2 ^ (64 + (flog2 d h).toNat) + (errorTerm d h).toNat

/-- R78: on the add path the doubling of the remainder does not wrap, neither half of the increment test holds, and the
candidate is exactly doubled.
The spec marks this as its own inference ([derived]). -/
def Obligations.IncrementNeverFires : Prop :=
  ∀ (d : Word) (h : d ≠ 0#64), ispow2 d h = false → candidateExact d h = false →
    (twiceRem (candidate d h).rem).toNat = 2 * (candidate d h).rem.toNat ∧
    geu (twiceRem (candidate d h).rem) d = false ∧
    ltu (twiceRem (candidate d h).rem) (candidate d h).rem = false ∧
    (doubledCandidate (candidate d h) d).toNat = 2 * (2 ^ (64 + (flog2 d h).toNat) / d.toNat)

/-- R81: the closed forms of the descriptor; exactly one of the three rows holds, and the divisor is the argument.
The spec marks this as its own inference ([derived]). -/
def Obligations.ConstructClosedForms : Prop :=
  ∀ (d : Word) (h : d ≠ 0#64),
    (construct d h).divisor = d ∧ (construct d h).shift = flog2 d h ∧ (construct d h).Tabled ∧
    ((construct d h).addRow →
      (construct d h).mult.toNat + 2 ^ 64 = 2 * (2 ^ (64 + (flog2 d h).toNat) / d.toNat) + 1) ∧
    ¬ ((construct d h).powerRow ∧ (construct d h).noAddRow) ∧
    ¬ ((construct d h).powerRow ∧ (construct d h).addRow) ∧
    ¬ ((construct d h).noAddRow ∧ (construct d h).addRow)

/-- R82: `MULT` is zero only for a power of two; its bounds on the other two paths; the two tight cases.
The spec marks this as its own inference ([derived]). -/
def Obligations.MultZeroOnlyForPowersOfTwo : Prop :=
  (∀ (d : Word) (h : d ≠ 0#64),
    ((construct d h).mult = 0#64 ↔ ispow2 d h = true) ∧
    (ispow2 d h = false → (construct d h).add = false → 2 ^ 63 + 1 ≤ (construct d h).mult.toNat) ∧
    (ispow2 d h = false → (construct d h).add = true →
      1 ≤ (construct d h).mult.toNat ∧ (construct d h).mult.toNat ≤ 2 ^ 64 - 3 ∧
      (construct d h).mult.toNat % 2 = 1)) ∧
  construct 0x8000000000000001#64 (by decide) =
    { divisor := 0x8000000000000001#64, mult := 0xFFFFFFFFFFFFFFFF#64, shift := 63#6, add := false } ∧
  construct 0xFFFFFFFFFFFFFFFF#64 (by decide) =
    { divisor := 0xFFFFFFFFFFFFFFFF#64, mult := 0x8000000000000001#64, shift := 63#6, add := false }

/-- R83: `SHIFT` is `flog2(DIVISOR)` on every path; it is 0 only for the divisor 1.
The spec marks this as its own inference ([derived]). -/
def Obligations.ShiftIsFloorLog : Prop :=
  ∀ (d : Word) (h : d ≠ 0#64),
    (construct d h).shift = flog2 d h ∧ ((construct d h).shift = 0#6 ↔ d = 1#64) ∧
    (ispow2 d h = false → 1 ≤ (construct d h).shift.toNat)

/-- R85: the comparison is strict: a divisor with `e == 2^L` takes the add path, although its no-add candidate would divide
every dividend exactly; 274177 is such a divisor.
All but the strict comparison is an inference the spec marks as its own ([derived]). -/
def Obligations.StrictBoundaryTakesAddPath : Prop :=
  (∀ (d : Word) (h : d ≠ 0#64), ispow2 d h = false → (errorTerm d h).toNat = 2 ^ (flog2 d h).toNat →
    (construct d h).add = true ∧
    d.toNat * ((candidate d h).quot.toNat + 1) = 2 ^ (flog2 d h).toNat * (2 ^ 64 + 1) ∧
    ∀ n : Word, ((candidate d h).quot.toNat + 1) * n.toNat / 2 ^ (64 + (flog2 d h).toNat) = n.toNat / d.toNat) ∧
  2 ^ 64 + 1 = 274177 * 67280421310721 ∧
  (candidate 274177#64 (by decide)).rem = 0x2F01#64 ∧
  errorTerm 274177#64 (by decide) = 0x40000#64 ∧
  construct 274177#64 (by decide) =
    { divisor := 274177#64, mult := 0xE9878CE68807FFFF#64, shift := 18#6, add := true }

/-! ## Application -/

/-- `42_apply.md` R95: `FDDIV` with an empty slot; the response is `(0x02, 0)`. -/
def Obligations.FddivWithoutDescriptorFaults : Prop :=
  Response.word { status := .fault .noDescriptor, data := 0#64 } = 0x02#8 ++ 0#64 ∧
  ∀ (s : State) (n : Word), s.desc = none →
    exec (.fddiv n) s = .next { s with
      err := true
      responses := s.responses ++ [{ status := .fault .noDescriptor, data := 0#64 }] }

/-- R91: the bypass path shifts the dividend, whatever `ADD` is. -/
def Obligations.FddivBypass : Prop :=
  ∀ (s : State) (d : Descriptor) (n : Word), s.desc = some d → d.mult = 0#64 →
    ∃ r : Word, r.toNat = n.toNat / 2 ^ d.shift.toNat ∧
      exec (.fddiv n) s = .next { s with responses := s.responses ++ [{ status := .success, data := r }] }

/-- R94: the no-add path, in two steps and as one floor.
The second form is an inference the spec marks as its own ([derived]). -/
def Obligations.FddivNoAddPath : Prop :=
  ∀ (s : State) (d : Descriptor) (n : Word), s.desc = some d → d.mult ≠ 0#64 → d.add = false →
    ∃ r : Word, r.toNat = d.mult.toNat * n.toNat / 2 ^ 64 / 2 ^ d.shift.toNat ∧
      r.toNat = d.mult.toNat * n.toNat / 2 ^ (64 + d.shift.toNat) ∧
      exec (.fddiv n) s = .next { s with responses := s.responses ++ [{ status := .success, data := r }] }

/-- R93: the add path, in its equivalent form with the exact 65-bit sum; no intermediate wraps.
The first form rests on R99, an inference the spec marks as its own ([derived]). -/
def Obligations.FddivAddPath : Prop :=
  ∀ (s : State) (d : Descriptor) (n : Word), s.desc = some d → d.mult ≠ 0#64 → d.add = true →
    ∃ r : Word,
      r.toNat = (n.toNat + d.mult.toNat * n.toNat / 2 ^ 64) / 2 ^ (d.shift.toNat + 1) ∧
      r.toNat = ((n.toNat - d.mult.toNat * n.toNat / 2 ^ 64) / 2 + d.mult.toNat * n.toNat / 2 ^ 64) /
        2 ^ d.shift.toNat ∧
      exec (.fddiv n) s = .next { s with responses := s.responses ++ [{ status := .success, data := r }] }

/-- R96: with a descriptor, `FDDIV` succeeds for every dividend, changes nothing but the response it sends, and its response
is a function of `(MULT, SHIFT, ADD, N)`: `DIVISOR` is not read. -/
def Obligations.FddivIsPure : Prop :=
  ∀ (m : Word) (l : ShiftAmount) (a : Bool) (n : Word), ∃ r : Word, ∀ (s : State) (d : Word),
    s.desc = some { divisor := d, mult := m, shift := l, add := a } →
    exec (.fddiv n) s = .next { s with responses := s.responses ++ [{ status := .success, data := r }] }

/-- R98: after a successful `FDNEW D`, in any state, `FDDIV N` answers `floor(N / D)` for every `N`. -/
def Obligations.FddivExactAfterFdnew : Prop :=
  ∀ (s : State) (d n : Word), d ≠ 0#64 →
    ∃ (t : State) (r : Word), exec (.fdnew d) s = .next t ∧ r.toNat = n.toNat / d.toNat ∧
      exec (.fddiv n) t = .next { t with responses := t.responses ++ [{ status := .success, data := r }] }

/-- R100: the corner cases of the quotient, on every path.
The spec marks this as its own inference ([derived]). -/
def Obligations.QuotientCornerCases : Prop :=
  (∀ (d : Word) (h : d ≠ 0#64),
    quotient (construct d h) 0#64 = 0#64 ∧
    (∀ n : Word, n.toNat < d.toNat → quotient (construct d h) n = 0#64) ∧
    quotient (construct d h) d = 1#64 ∧
    (quotient (construct d h) 0xFFFFFFFFFFFFFFFF#64).toNat = (2 ^ 64 - 1) / d.toNat ∧
    ((construct d h).shift = 63#6 → ∀ n : Word, (quotient (construct d h) n).toNat ≤ 1)) ∧
  (∀ n : Word, quotient (construct 1#64 (by decide)) n = n) ∧
  (∀ n : Word, quotient (construct 0xFFFFFFFFFFFFFFFF#64 (by decide)) n =
    if n = 0xFFFFFFFFFFFFFFFF#64 then 1#64 else 0#64)

/-- `70_reset_and_hazards.md` R136: an `FDDIV` taken right after an `FDNEW` uses the new descriptor, whatever the slot held. -/
def Obligations.FddivRightAfterFdnew : Prop :=
  ∀ (s : State) (d n : Word) (rest : List Input) (h : d ≠ 0#64),
    s.pending = .command (encode (.fdnew d)) :: .command (encode (.fddiv n)) :: rest →
    ∃ r : Word, r.toNat = n.toNat / d.toNat ∧
      Host.Core.run Sys2Proof.core 2 s = .next { s with
        desc := some (construct d h)
        pending := rest
        responses := s.responses ++ [{ status := .success, data := 0#64 }, { status := .success, data := r }] }

/-! ## Read-back -/

/-- `43_readback.md` R105: `FDRD.DIVISOR`, and that after an `FDNEW` it returns that command's argument. -/
def Obligations.ReadBackDivisor : Prop :=
  encode .fdrdDivisor = 0x03#8 ++ 0#64 ∧
  (∀ s : State, s.desc = none → exec .fdrdDivisor s = .next { s with
    err := true
    responses := s.responses ++ [{ status := .fault .noDescriptor, data := 0#64 }] }) ∧
  (∀ (s : State) (d : Descriptor), s.desc = some d → exec .fdrdDivisor s = .next { s with
    responses := s.responses ++ [{ status := .success, data := d.divisor }] }) ∧
  (∀ (s : State) (d : Word), d ≠ 0#64 → ∃ t, exec (.fdnew d) s = .next t ∧
    exec .fdrdDivisor t = .next { t with responses := t.responses ++ [{ status := .success, data := d }] })

/-- R106: `FDRD.MULT`, and that after an `FDNEW` it returns 0 exactly for a power-of-two divisor. -/
def Obligations.ReadBackMult : Prop :=
  encode .fdrdMult = 0x03#8 ++ 1#64 ∧
  (∀ s : State, s.desc = none → exec .fdrdMult s = .next { s with
    err := true
    responses := s.responses ++ [{ status := .fault .noDescriptor, data := 0#64 }] }) ∧
  (∀ (s : State) (d : Descriptor), s.desc = some d → exec .fdrdMult s = .next { s with
    responses := s.responses ++ [{ status := .success, data := d.mult }] }) ∧
  (∀ (s : State) (d : Word) (h : d ≠ 0#64), ∃ (t : State) (m : Word), exec (.fdnew d) s = .next t ∧
    exec .fdrdMult t = .next { t with responses := t.responses ++ [{ status := .success, data := m }] } ∧
    (m = 0#64 ↔ ispow2 d h = true))

/-- R107: `FDRD.SHIFT`: the shift in bits 5:0, zeros above; after an `FDNEW` it is `flog2(DIVISOR)`. -/
def Obligations.ReadBackShift : Prop :=
  encode .fdrdShift = 0x03#8 ++ 2#64 ∧
  (∀ s : State, s.desc = none → exec .fdrdShift s = .next { s with
    err := true
    responses := s.responses ++ [{ status := .fault .noDescriptor, data := 0#64 }] }) ∧
  (∀ (s : State) (d : Descriptor), s.desc = some d → ∃ v : Word, v.toNat = d.shift.toNat ∧
    exec .fdrdShift s = .next { s with responses := s.responses ++ [{ status := .success, data := v }] }) ∧
  (∀ (s : State) (d : Word) (h : d ≠ 0#64), ∃ (t : State) (v : Word), exec (.fdnew d) s = .next t ∧
    v.toNat = (flog2 d h).toNat ∧
    exec .fdrdShift t = .next { t with responses := t.responses ++ [{ status := .success, data := v }] })

/-- R108: `FDRD.ADD`: 1 for true, 0 for false. -/
def Obligations.ReadBackAdd : Prop :=
  encode .fdrdAdd = 0x03#8 ++ 3#64 ∧
  (∀ s : State, s.desc = none → exec .fdrdAdd s = .next { s with
    err := true
    responses := s.responses ++ [{ status := .fault .noDescriptor, data := 0#64 }] }) ∧
  (∀ (s : State) (d : Descriptor), s.desc = some d → exec .fdrdAdd s = .next { s with
    responses := s.responses ++ [{ status := .success, data := if d.add then 1#64 else 0#64 }] })

/-- R109: `FDRD.STATUS` succeeds in every state with `2*ERR + VALID` and changes nothing else; the response and the slot after
any other command do not depend on `ERR`, so it is the only one that can observe it. -/
def Obligations.ReadBackStatus : Prop :=
  encode .fdrdStatus = 0x03#8 ++ 4#64 ∧
  (∀ s : State, ∃ v : Word, v.toNat = 2 * s.err.toNat + s.valid.toNat ∧
    exec .fdrdStatus s = .next { s with responses := s.responses ++ [{ status := .success, data := v }] }) ∧
  ∀ (i : Instr) (s : State) (b : Bool), i ≠ .fdrdStatus → ∃ (t u : State),
    exec i s = .next t ∧ exec i { s with err := b } = .next u ∧ t.responses = u.responses ∧ t.desc = u.desc

/-! ## What commands leave unchanged -/

/-- `20_memory.md` R32 and `43_readback.md` R110: a read-only command changes `ERR` only by faulting and nothing else but the
response it sends; one that succeeds gives the same response again and leaves the same state. -/
def Obligations.ReadOnlyCommandsKeepState : Prop :=
  ∀ (i : Instr) (s : State), readOnly i = true → ∃ r : Response,
    exec i s = .next { s with err := s.err || r.status != .success, responses := s.responses ++ [r] } ∧
    (r.status = .success →
      exec i { s with responses := s.responses ++ [r] } = .next { s with responses := s.responses ++ [r, r] })

/-- R38: read-only commands commute. With a descriptor each leaves the state and answers as it would alone; without one both
orders end with the slot empty and the same `ERR`, 1 if either command faults.
The spec marks this as its own inference ([derived]). -/
def Obligations.ReadOnlyCommandsCommute : Prop :=
  (∀ (s : State) (d : Descriptor) (a b : Instr), s.desc = some d → readOnly a = true → readOnly b = true →
    ∃ ra rb : Response,
      exec a s = .next { s with responses := s.responses ++ [ra] } ∧
      exec b { s with responses := s.responses ++ [ra] } = .next { s with responses := s.responses ++ [ra, rb] } ∧
      exec b s = .next { s with responses := s.responses ++ [rb] } ∧
      exec a { s with responses := s.responses ++ [rb] } = .next { s with responses := s.responses ++ [rb, ra] }) ∧
  (∀ (s : State) (a b : Instr), s.desc = none → readOnly a = true → readOnly b = true →
    ∃ sa sab sb sba : State,
      exec a s = .next sa ∧ exec b sa = .next sab ∧ exec b s = .next sb ∧ exec a sb = .next sba ∧
      sab.desc = none ∧ sba.desc = none ∧ sab.err = sba.err ∧
      (a ≠ .fdrdStatus ∨ b ≠ .fdrdStatus → sab.err = true))

/-- R37: with a descriptor in the slot, a stream of read-only commands is answered command by command with what each would be
answered alone, so the responses do not depend on how the streams of several hosts are interleaved.
The spec marks this as its own inference ([derived]). -/
def Obligations.ReadOnlyStreamAnswers : Prop :=
  ∀ (d : Descriptor) (e : Bool), ∃ answer : Instr → Response, ∀ (is : List Instr) (s : State) (rest : List Input),
    s.desc = some d → s.err = e → (∀ i ∈ is, readOnly i = true) →
    s.pending = is.map (fun i => .command (encode i)) ++ rest →
    Host.Core.run Sys2Proof.core is.length s = .next { s with
      pending := rest
      responses := s.responses ++ is.map answer }

/-- `10_state.md` R24 and `43_readback.md` R111: the slot is written only by `FDNEW`, all four registers together and with what
construction derives from the argument, and emptied only by `FDNEW 0` and by reset. -/
def Obligations.OnlyFdnewWritesDescriptor : Prop :=
  ∀ s t : State, step s = .next t →
    t.desc = s.desc ∨
    (∃ (d : Word) (h : d ≠ 0#64) (rest : List Input),
      s.pending = .command (encode (.fdnew d)) :: rest ∧ t.desc = some (construct d h)) ∨
    (t.desc = none ∧ ∃ rest : List Input,
      s.pending = .command (encode (.fdnew 0#64)) :: rest ∨ s.pending = .reset :: rest)

/-- R19: a command leaves `ERR` 1 exactly when it was 1 or the command faulted; reset clears it; bit 1 of
what `FDRD.STATUS` reads is `ERR`, which changes no other command's behaviour. -/
def Obligations.ErrIsStickyAndInert : Prop :=
  (∀ (s t : State) (w : CommandWord) (rest : List Input), s.pending = .command w :: rest → step s = .next t →
    ∃ r : Response, t.responses = s.responses ++ [r] ∧ (t.err = true ↔ s.err = true ∨ r.status ≠ .success)) ∧
  (∀ (s t : State) (rest : List Input), s.pending = .reset :: rest → step s = .next t → t.err = false) ∧
  (∀ s : State, ∃ v : Word, v.getLsbD 1 = s.err ∧
    exec .fdrdStatus s = .next { s with responses := s.responses ++ [{ status := .success, data := v }] }) ∧
  (∀ (i : Instr) (s : State) (b : Bool), i ≠ .fdrdStatus →
    ∃ t : State, ∃ c : Bool, exec i s = .next t ∧ exec i { s with err := b } = .next { t with err := c })

/-! ## Faults -/

/-- `60_exceptions.md` R112, R117, R118: each fault is raised exactly when its cause holds, decode before everything else; a
fault's data is 0; the codes. -/
def Obligations.FaultsRaisedExactlyByTheirCause : Prop :=
  (∀ (s : State) (w : CommandWord) (rest : List Input), s.pending = .command w :: rest →
    ∃ (t : State) (r : Response), step s = .next t ∧ t.responses = s.responses ++ [r] ∧
      (r.status = .fault .illegalCommand ↔ decode w = .illegal) ∧
      (r.status = .fault .invalidDivisor ↔ decode w = .legal (.fdnew 0#64)) ∧
      (r.status = .fault .noDescriptor ↔
        s.desc = none ∧ (decode w = .legal .fdrdDivisor ∨ decode w = .legal .fdrdMult ∨
          decode w = .legal .fdrdShift ∨ decode w = .legal .fdrdAdd ∨ ∃ n, decode w = .legal (.fddiv n))) ∧
      (r.status ≠ .success → r.data = 0#64)) ∧
  Status.success.code = 0x00#8 ∧ (Status.fault .invalidDivisor).code = 0x01#8 ∧
  (Status.fault .noDescriptor).code = 0x02#8 ∧ (Status.fault .illegalCommand).code = 0x03#8

/-- R119: the whole effect of a faulting command. -/
def Obligations.FaultEntryEffect : Prop :=
  ∀ (s t : State) (w : CommandWord) (rest : List Input) (f : Fault) (data : Word),
    s.pending = .command w :: rest → step s = .next t →
    t.responses = s.responses ++ [{ status := .fault f, data := data }] →
    t = { s with
      err := true
      desc := if f = .invalidDivisor then none else s.desc
      pending := rest
      responses := s.responses ++ [{ status := .fault f, data := 0#64 }] }

/-- R121: after any faulting command an `FDNEW` succeeds, sets `VALID` and leaves `ERR` at 1. -/
def Obligations.EngineGoesOnAfterFault : Prop :=
  ∀ (s t : State) (w : CommandWord) (rest : List Input) (f : Fault) (d : Word) (h : d ≠ 0#64),
    s.pending = .command w :: .command (encode (.fdnew d)) :: rest → step s = .next t →
    t.responses = s.responses ++ [{ status := .fault f, data := 0#64 }] →
    step t = .next { t with
      err := true
      desc := some (construct d h)
      pending := rest
      responses := t.responses ++ [{ status := .success, data := 0#64 }] }

/-! ## Invariants -/

/-- `10_state.md` R27: every step keeps that the descriptor in the slot is one of the table's.
The spec marks this as its own inference ([derived]). -/
def Obligations.DescriptorTableKept : Prop :=
  ∀ s t : State, s.TabledInv → step s = .next t → t.TabledInv

/-- R26: every step keeps that the descriptor in the slot has a divisor that is not 0 and divides every dividend exactly. -/
def Obligations.ExactQuotientKept : Prop :=
  ∀ s t : State, s.ExactInv → step s = .next t → t.ExactInv

/-- `70_reset_and_hazards.md` R134: every step keeps that `ERR` is 1 exactly when some response since the last reset was a
fault.
The spec marks the equivalence as its own inference ([derived]). -/
def Obligations.ErrRecordsFaultsKept : Prop :=
  ∀ s t : State, s.ErrInv → step s = .next t → t.ErrInv

/-- R134: a run is a finite stream of commands after a reset; it is clean exactly when no response had a status other than
success.
The spec marks this as its own inference ([derived]). -/
def Obligations.CleanRunHasNoFault : Prop :=
  ∀ ws : List CommandWord, ∃ t : State,
    Host.Core.run Sys2Proof.core ws.length (State.reset.offer (ws.map .command)) = .next t ∧
    t.responses.length = ws.length ∧
    (clean t = true ↔ ∀ r ∈ t.responses, r.status = .success)

/-- The three invariants hold in the reset state. -/
def Obligations.InvariantsHoldAtReset : Prop :=
  State.reset.TabledInv ∧ State.reset.ExactInv ∧ State.reset.ErrInv

/-! ## The datapath units -/

/-- `40_units.md` R55: `flog2(d)` is the position of the highest set bit; corner cases and the example. -/
def Obligations.FlogTwoIsHighestSetBit : Prop :=
  (∀ (d : Word) (h : d ≠ 0#64),
    d.getLsbD (flog2 d h).toNat = true ∧ (∀ j, (flog2 d h).toNat < j → d.getLsbD j = false) ∧
    2 ^ (flog2 d h).toNat ≤ d.toNat ∧ d.toNat < 2 ^ ((flog2 d h).toNat + 1) ∧
    (∀ k, 2 ^ k ≤ d.toNat → d.toNat < 2 ^ (k + 1) → k = (flog2 d h).toNat)) ∧
  flog2 1#64 (by decide) = 0#6 ∧ flog2 0xFFFFFFFFFFFFFFFF#64 (by decide) = 63#6 ∧
  flog2 0x8000000000000000#64 (by decide) = 63#6 ∧ flog2 0x7FFFFFFFFFFFFFFF#64 (by decide) = 62#6 ∧
  flog2 641#64 (by decide) = 9#6

/-- R56: `ispow2(d)` says whether `d` is an exact power of two, and the mask test realises it.
The mask test is an inference the spec marks as its own ([derived]). -/
def Obligations.IspowTwoIsExact : Prop :=
  (∀ (d : Word) (h : d ≠ 0#64),
    (ispow2 d h = true ↔ ∃ k, d.toNat = 2 ^ k) ∧ (ispow2 d h = true ↔ d &&& (d - 1#64) = 0#64)) ∧
  ispow2 1#64 (by decide) = true ∧ ispow2 0x8000000000000000#64 (by decide) = true ∧
  ispow2 3#64 (by decide) = false ∧ ispow2 0xFFFFFFFFFFFFFFFF#64 (by decide) = false ∧
  ispow2 4096#64 (by decide) = true

/-- R57: `mulhi` is the upper half of the exact 128-bit product; symmetry, corner cases and the example. -/
def Obligations.MulhiIsUpperHalf : Prop :=
  (∀ a b : Word, mulhi a b = (a.setWidth 128 * b.setWidth 128).extractLsb' 64 64 ∧
    (a.setWidth 128 * b.setWidth 128).toNat = a.toNat * b.toNat ∧
    (mulhi a b).toNat = a.toNat * b.toNat / 2 ^ 64 ∧ mulhi a b = mulhi b a ∧ mulhi a 0#64 = 0#64 ∧ mulhi a 1#64 = 0#64) ∧
  mulhi 0xFFFFFFFFFFFFFFFF#64 0xFFFFFFFFFFFFFFFF#64 = 0xFFFFFFFFFFFFFFFE#64 ∧
  mulhi 0x100000000#64 0x100000000#64 = 1#64 ∧ mulhi 0x8000000000000000#64 2#64 = 1#64 ∧
  mulhi 0x8000000000000000#64 1#64 = 0#64 ∧ mulhi 0x2492492492492493#64 100#64 = 14#64

/-- R63: the four partial products give `mulhi`.
The spec marks this as its own inference ([derived]). -/
def Obligations.PartialProductsGiveMulhi : Prop :=
  ∀ a b : Word, (mulhi a b).toNat = mulhiPartial a b

/-- R64: the bounds on `mulhi`, in both operands.
The spec marks this as its own inference ([derived]). -/
def Obligations.MulhiBelowOperands : Prop :=
  ∀ a b : Word,
    (mulhi a b).toNat ≤ b.toNat ∧ (mulhi a b = b ↔ b = 0#64) ∧ (b ≠ 0#64 → (mulhi a b).toNat ≤ b.toNat - 1) ∧
    (mulhi a b).toNat ≤ a.toNat ∧ (mulhi a b = a ↔ a = 0#64) ∧ (a ≠ 0#64 → (mulhi a b).toNat ≤ a.toNat - 1)

/-- R65: with `q <= n` the conditional adder wraps in neither step and gives `floor((n + q) / 2)`, which is at most `n`.
The spec marks this as its own inference ([derived]). -/
def Obligations.CaddIsHalfOfSum : Prop :=
  ∀ n q : Word, q.toNat ≤ n.toNat →
    (n - q).toNat = n.toNat - q.toNat ∧
    (n.toNat - q.toNat) / 2 + q.toNat = (n.toNat + q.toNat) / 2 ∧
    (n.toNat + q.toNat) / 2 ≤ n.toNat ∧
    (cadd n q true).toNat = (n.toNat + q.toNat) / 2

/-- R60: the wide divider is exact; its bounds where the engine uses it; the corner cases and the example.
The bounds are an inference the spec marks as its own ([derived]). -/
def Obligations.WdivIsExact : Prop :=
  (∀ (l : ShiftAmount) (d : Word) (h : d ≠ 0#64),
    (wdiv l d h).quot.toNat = 2 ^ (64 + l.toNat) / d.toNat ∧ (wdiv l d h).rem.toNat = 2 ^ (64 + l.toNat) % d.toNat ∧
    (wdiv l d h).quot.toNat * d.toNat + (wdiv l d h).rem.toNat = 2 ^ (64 + l.toNat) ∧
    (wdiv l d h).rem.toNat < d.toNat) ∧
  (∀ (d : Word) (h : d ≠ 0#64), ispow2 d h = false →
    2 ^ 63 ≤ (wdiv (flog2 d h) d h).quot.toNat ∧ (wdiv (flog2 d h) d h).quot.toNat < 2 ^ 64 ∧
    1 ≤ (wdiv (flog2 d h) d h).rem.toNat) ∧
  wdiv 0#6 1#64 (by decide) = { quot := 0x10000000000000000#128, rem := 0#64 } ∧
  wdiv 63#6 0xFFFFFFFFFFFFFFFF#64 (by decide) = { quot := 0x8000000000000000#128, rem := 0x8000000000000000#64 } ∧
  wdiv 2#6 7#64 (by decide) = { quot := 0x9249249249249249#128, rem := 1#64 }
end

