-- ==== Sys2Proof/Laws/Arith.lean ====
section
/-! SUPPORT. The arithmetic on natural numbers behind construction and application (`42_apply.md` R98, `41_construct.md` R74),
said without the machine. -/

namespace Sys2Proof.Arith

/-- A multiplier `M` with `M * D = u + e` divides `N` exactly by a floor at `u` as long as `e * N < u`. -/
theorem mul_div_eq_div {u e M D N : Nat} (hD : 0 < D) (hM : M * D = u + e) (he : e * N < u) :
    M * N / u = N / D := by
  have hu : 0 < u := by omega
  have hk := Nat.div_add_mod N D
  have hr := Nat.mod_lt N hD
  generalize N / D = k at *
  generalize N % D = r at *
  have hND : M * N * D = u * N + e * N := by
    calc M * N * D = M * D * N := by ring
      _ = u * N + e * N := by rw [hM]; ring
  rw [Nat.div_eq_iff hu]
  constructor
  · have h : k * u * D ≤ M * N * D := by
      rw [hND]
      calc k * u * D = u * (D * k) := by ring
        _ ≤ u * N := Nat.mul_le_mul_left _ (by omega)
        _ ≤ u * N + e * N := Nat.le_add_right _ _
    have := Nat.le_of_mul_le_mul_right h hD
    omega
  · have h : M * N * D < (k * u + u) * D := by
      rw [hND]
      calc u * N + e * N < u * (N + 1) := by rw [Nat.mul_add]; omega
        _ ≤ u * (D * k + D) := Nat.mul_le_mul_left _ (by omega)
        _ = (k * u + u) * D := by ring
    have := Nat.lt_of_mul_lt_mul_right h
    omega

/-- A number strictly between two neighbouring powers of two divides no power of two. -/
theorem one_le_two_pow_mod {D L : Nat} (h1 : 2 ^ L < D) (h2 : D < 2 ^ (L + 1)) (k : Nat) : 1 ≤ 2 ^ k % D := by
  by_contra hc
  have hd : D ∣ 2 ^ k := Nat.dvd_of_mod_eq_zero (by omega)
  obtain ⟨j, -, rfl⟩ := (Nat.dvd_prime_pow Nat.prime_two).1 hd
  have := (Nat.pow_lt_pow_iff_right (by decide : 1 < 2)).1 h1
  have := (Nat.pow_lt_pow_iff_right (by decide : 1 < 2)).1 h2
  omega

/-- The exponent of the largest power of two at most `n` is unique. -/
theorem log_unique {n j k : Nat} (h1 : 2 ^ j ≤ n) (h2 : n < 2 ^ (j + 1)) (h3 : 2 ^ k ≤ n) (h4 : n < 2 ^ (k + 1)) :
    j = k := by
  have := (Nat.pow_lt_pow_iff_right (by decide : 1 < 2)).1 (lt_of_le_of_lt h1 h4)
  have := (Nat.pow_lt_pow_iff_right (by decide : 1 < 2)).1 (lt_of_le_of_lt h3 h2)
  omega

end Sys2Proof.Arith
end

