-- ==== Sys2Proof/Laws/State.lean ====
section
/-! SUPPORT. One lemma per field per state update, so that no later proof unfolds an update. -/

namespace Sys2Proof.Machine

@[simp] theorem deliver_err (r : Response) (s : State) : (deliver r s).err = s.err := rfl
@[simp] theorem deliver_desc (r : Response) (s : State) : (deliver r s).desc = s.desc := rfl
@[simp] theorem deliver_pending (r : Response) (s : State) : (deliver r s).pending = s.pending := rfl
@[simp] theorem deliver_responses (r : Response) (s : State) : (deliver r s).responses = s.responses ++ [r] := rfl

@[simp] theorem recordFault_err (s : State) : (recordFault s).err = true := rfl
@[simp] theorem recordFault_desc (s : State) : (recordFault s).desc = s.desc := rfl
@[simp] theorem recordFault_pending (s : State) : (recordFault s).pending = s.pending := rfl
@[simp] theorem recordFault_responses (s : State) : (recordFault s).responses = s.responses := rfl

@[simp] theorem writeDescriptor_err (d : Descriptor) (s : State) : (writeDescriptor d s).err = s.err := rfl
@[simp] theorem writeDescriptor_desc (d : Descriptor) (s : State) : (writeDescriptor d s).desc = some d := rfl
@[simp] theorem writeDescriptor_pending (d : Descriptor) (s : State) : (writeDescriptor d s).pending = s.pending := rfl
@[simp] theorem writeDescriptor_responses (d : Descriptor) (s : State) :
    (writeDescriptor d s).responses = s.responses := rfl

@[simp] theorem clearDescriptor_err (s : State) : (clearDescriptor s).err = s.err := rfl
@[simp] theorem clearDescriptor_desc (s : State) : (clearDescriptor s).desc = none := rfl
@[simp] theorem clearDescriptor_pending (s : State) : (clearDescriptor s).pending = s.pending := rfl
@[simp] theorem clearDescriptor_responses (s : State) : (clearDescriptor s).responses = s.responses := rfl

@[simp] theorem faultSlot_err (f : Fault) (s : State) : (faultSlot f s).err = s.err := by cases f <;> rfl
@[simp] theorem faultSlot_pending (f : Fault) (s : State) : (faultSlot f s).pending = s.pending := by cases f <;> rfl
@[simp] theorem faultSlot_responses (f : Fault) (s : State) : (faultSlot f s).responses = s.responses := by
  cases f <;> rfl
@[simp] theorem faultSlot_desc (f : Fault) (s : State) :
    (faultSlot f s).desc = if f = .invalidDivisor then none else s.desc := by cases f <;> rfl

@[simp] theorem placeCommand_err (w : CommandWord) (s : State) : (placeCommand w s).err = s.err := rfl
@[simp] theorem placeCommand_desc (w : CommandWord) (s : State) : (placeCommand w s).desc = s.desc := rfl
@[simp] theorem placeCommand_pending (w : CommandWord) (s : State) :
    (placeCommand w s).pending = .command w :: s.pending := rfl
@[simp] theorem placeCommand_responses (w : CommandWord) (s : State) : (placeCommand w s).responses = s.responses := rfl

@[simp] theorem offer_err (s : State) (xs : List Input) : (s.offer xs).err = s.err := rfl
@[simp] theorem offer_desc (s : State) (xs : List Input) : (s.offer xs).desc = s.desc := rfl
@[simp] theorem offer_pending (s : State) (xs : List Input) : (s.offer xs).pending = s.pending ++ xs := rfl
@[simp] theorem offer_responses (s : State) (xs : List Input) : (s.offer xs).responses = s.responses := rfl

@[simp] theorem valid_of_desc_none {s : State} (h : s.desc = none) : s.valid = false := by simp [State.valid, h]
@[simp] theorem valid_of_desc_some {s : State} {d : Descriptor} (h : s.desc = some d) : s.valid = true := by
  simp [State.valid, h]

end Sys2Proof.Machine
end

