-- ==== Sys2Proof/Laws/Ops.lean ====
section
/-! SUPPORT. Everything each shared operation can do, said once: the operations answer next states only. -/

namespace Sys2Proof.Machine

theorem respond_eq (data : Word) (s : State) :
    respond data s = .next { s with responses := s.responses ++ [{ status := .success, data := data }] } := rfl

theorem raise_eq (f : Fault) (s : State) :
    raise f s = .next { s with
      err := true
      desc := if f = .invalidDivisor then none else s.desc
      responses := s.responses ++ [{ status := .fault f, data := 0#64 }] } := by
  cases f <;> rfl

theorem withDescriptor_some {s : State} {d : Descriptor} (h : s.desc = some d) (k : Descriptor → Result) :
    withDescriptor s k = k d := by simp [withDescriptor, h]

theorem withDescriptor_none {s : State} (h : s.desc = none) (k : Descriptor → Result) :
    withDescriptor s k = raise .noDescriptor s := by simp [withDescriptor, h]

theorem takeInput_nil {s : State} (h : s.pending = []) : takeInput s = none := by simp [takeInput, h]

theorem takeInput_cons {s : State} {x : Input} {rest : List Input} (h : s.pending = x :: rest) :
    takeInput s = some (x, { s with pending := rest }) := by simp [takeInput, h]

theorem statusData_toNat (s : State) : (statusData s).toNat = 2 * s.err.toNat + s.valid.toNat := by
  unfold statusData
  cases s.err <;> cases s.valid <;> rfl

end Sys2Proof.Machine
end

