-- ==== Sys2Proof/Laws/PerInstr.lean ====
section
/-! SUPPORT. The family `Encoding`: the word of a command holds its opcode and its argument in their fields and is a legal
word (`30_encoding.md` R40, R44, R46), one lemma per constructor. -/

namespace Sys2Proof.Laws

theorem append_toNat (op : BitVec 8) (arg : Word) : (op ++ arg).toNat = op.toNat * 2 ^ 64 + arg.toNat := by
  rw [BitVec.toNat_append, Nat.shiftLeft_eq, Nat.mul_comm, ← Nat.two_pow_add_eq_or_of_lt arg.isLt]

theorem opField_append (op : BitVec 8) (arg : Word) : opField (op ++ arg) = op := by
  apply BitVec.eq_of_toNat_eq
  have := arg.isLt
  have := op.isLt
  rw [opField, BitVec.extractLsb'_toNat, append_toNat, Nat.shiftRight_eq_div_pow]
  omega

theorem argField_append (op : BitVec 8) (arg : Word) : argField (op ++ arg) = arg := by
  apply BitVec.eq_of_toNat_eq
  have := arg.isLt
  rw [argField, BitVec.extractLsb'_toNat, append_toNat, Nat.shiftRight_zero]
  omega

/-- A command word is its two fields. -/
theorem fields_append (w : CommandWord) : opField w ++ argField w = w := by
  apply BitVec.eq_of_toNat_eq
  have := w.isLt
  rw [append_toNat, opField, argField, BitVec.extractLsb'_toNat, BitVec.extractLsb'_toNat, Nat.shiftRight_eq_div_pow,
    Nat.shiftRight_zero]
  omega

/-- The fields of a command's word, and that the word is legal. -/
def Encoding.Statement (i : Instr) : Prop :=
  opField (encode i) = i.opcode ∧ argField (encode i) = i.argument ∧ wordWf (encode i) = true

theorem wordWf_append (op : BitVec 8) (arg : Word) :
    wordWf (op ++ arg) = (op.toNat == 1 || op.toNat == 2 || (op.toNat == 3 && decide (arg.toNat < 5))) := by
  have h := arg.isLt
  have hd : (op.toNat * 2 ^ 64 + arg.toNat) / 2 ^ 64 = op.toNat := by omega
  have hm : (op.toNat * 2 ^ 64 + arg.toNat) % 2 ^ 64 = arg.toNat := by omega
  simp only [wordWf, Config.W, append_toNat, hd, hm]

theorem Encoding.fdnew (d : Word) : Encoding.Statement (.fdnew d) :=
  ⟨opField_append _ _, argField_append _ _, by rw [encode, wordWf_append]; rfl⟩

theorem Encoding.fddiv (n : Word) : Encoding.Statement (.fddiv n) :=
  ⟨opField_append _ _, argField_append _ _, by rw [encode, wordWf_append]; rfl⟩

theorem Encoding.fdrdDivisor : Encoding.Statement .fdrdDivisor :=
  ⟨opField_append _ _, argField_append _ _, by rw [encode, wordWf_append]; rfl⟩

theorem Encoding.fdrdMult : Encoding.Statement .fdrdMult :=
  ⟨opField_append _ _, argField_append _ _, by rw [encode, wordWf_append]; rfl⟩

theorem Encoding.fdrdShift : Encoding.Statement .fdrdShift :=
  ⟨opField_append _ _, argField_append _ _, by rw [encode, wordWf_append]; rfl⟩

theorem Encoding.fdrdAdd : Encoding.Statement .fdrdAdd :=
  ⟨opField_append _ _, argField_append _ _, by rw [encode, wordWf_append]; rfl⟩

theorem Encoding.fdrdStatus : Encoding.Statement .fdrdStatus :=
  ⟨opField_append _ _, argField_append _ _, by rw [encode, wordWf_append]; rfl⟩

end Sys2Proof.Laws
end

