-- ==== Sys2Proof/Laws/Step.lean ====
section
/-! SUPPORT. One inversion lemma for the step and one for the meanings: a command answers with one
response and either leaves the slot, or writes it with a constructed descriptor, or takes one fault. -/

namespace Sys2Proof.Machine

/-- What a command can do. -/
theorem exec_cases (i : Instr) (s : State) :
    (∃ data, readOnly i = true ∧ (i = .fdrdStatus ∨ s.desc.isSome) ∧ exec i s = respond data s) ∨
    (∃ d, ∃ h : d ≠ 0#64, i = .fdnew d ∧ exec i s = respond 0#64 (writeDescriptor (construct d h) s)) ∨
    (i = .fdnew 0#64 ∧ exec i s = raise .invalidDivisor s) ∨
    (readOnly i = true ∧ i ≠ .fdrdStatus ∧ s.desc = none ∧ exec i s = raise .noDescriptor s) := by
  cases i with
  | fdnew d =>
    by_cases h : iszero d = true
    · obtain rfl := (show d = 0#64 by simpa [iszero] using h)
      exact .inr (.inr (.inl ⟨rfl, by simp [exec, execFdnew, iszero]⟩))
    · exact .inr (.inl ⟨d, ne_zero_of_not_iszero h, rfl, by simp [exec, execFdnew, h]⟩)
  | fdrdStatus => exact .inl ⟨_, rfl, .inl rfl, rfl⟩
  | _ =>
    cases hd : s.desc with
    | none => exact .inr (.inr (.inr ⟨rfl, by simp, rfl, withDescriptor_none hd _⟩))
    | some d => exact .inl ⟨_, rfl, .inr rfl, withDescriptor_some hd _⟩

/-- What an input can do: nothing, a reset, a command that decodes, or a word that does not. -/
theorem step_cases (s : State) :
    (s.pending = [] ∧ step s = .next s) ∨
    (∃ rest, s.pending = .reset :: rest ∧ step s = .next { State.reset with pending := rest }) ∨
    (∃ w rest i, s.pending = .command w :: rest ∧ decode w = .legal i ∧
      step s = exec i { s with pending := rest }) ∨
    (∃ w rest, s.pending = .command w :: rest ∧ decode w = .illegal ∧
      step s = raise .illegalCommand { s with pending := rest }) := by
  rcases hp : s.pending with _ | ⟨_ | _, rest⟩
  · exact .inl ⟨rfl, by simp only [step, takeInput_nil hp, idle]⟩
  · rename_i w
    cases hd : decode w with
    | legal i => exact .inr (.inr (.inl ⟨w, rest, i, rfl, hd, by simp only [step, takeInput_cons hp, hd]⟩))
    | illegal => exact .inr (.inr (.inr ⟨w, rest, rfl, hd, by simp only [step, takeInput_cons hp, hd, takeIllegal]⟩))
  · exact .inr (.inl ⟨rest, rfl, by simp only [step, takeInput_cons hp, takeReset]⟩)

/-- A run whose first step answers a next state goes on from there. -/
theorem run_succ (M : Host.Core) (k : Nat) (s t : M.State) (h : M.step s = .next t) :
    M.run (k + 1) s = M.run k t := by
  simp only [Host.Core.run, h]

end Sys2Proof.Machine
end

