-- ==== Sys2Proof/Laws/Units.lean ====
section
/-! SUPPORT. The value of each datapath unit as arithmetic on natural numbers, one lemma per unit. -/

namespace Sys2Proof.Machine

theorem iszero_iff {x : Word} : iszero x = true ↔ x = 0#64 := by simp [iszero]

theorem ltu_iff {a b : Word} : ltu a b = true ↔ a.toNat < b.toNat := by simp [ltu]

theorem geu_iff {a b : Word} : geu a b = true ↔ b.toNat ≤ a.toNat := by simp [geu, ltu]

theorem trunc64_toNat (v : WideWord) : (trunc64 v).toNat = v.toNat % 2 ^ 64 := by
  simp [trunc64, BitVec.toNat_setWidth]

theorem toNat_pos_of_ne_zero {d : Word} (h : d ≠ 0#64) : 0 < d.toNat := by
  rcases Nat.eq_zero_or_pos d.toNat with h0 | h0
  · exact absurd (BitVec.eq_of_toNat_eq (by simpa using h0)) h
  · exact h0

theorem log2_lt_64 {d : Word} (h : d ≠ 0#64) : d.toNat.log2 < 64 :=
  (Nat.log2_lt (toNat_pos_of_ne_zero h).ne').mpr d.isLt

theorem flog2_toNat (d : Word) (h : d ≠ 0#64) : (flog2 d h).toNat = d.toNat.log2 := by
  have := log2_lt_64 h
  rw [flog2, BitVec.toNat_ofNat, Nat.mod_eq_of_lt (by omega)]

theorem pow2_toNat (s : ShiftAmount) : (pow2 s).toNat = 2 ^ s.toNat := by
  have : 2 ^ s.toNat < 2 ^ 64 := Nat.pow_lt_pow_right (by omega) s.isLt
  rw [pow2, BitVec.toNat_ofNat, Nat.mod_eq_of_lt this]

theorem ispow2_iff (d : Word) (h : d ≠ 0#64) : ispow2 d h = true ↔ d.toNat = 2 ^ (flog2 d h).toNat := by
  rw [ispow2, beq_iff_eq, ← BitVec.toNat_inj, pow2_toNat]

theorem mulhi_toNat (a b : Word) : (mulhi a b).toNat = a.toNat * b.toNat / 2 ^ 64 := by
  have : a.toNat * b.toNat < 2 ^ 64 * 2 ^ 64 := Nat.mul_lt_mul'' a.isLt b.isLt
  rw [mulhi, BitVec.toNat_ofNat, Nat.mod_eq_of_lt (Nat.div_lt_of_lt_mul this)]

theorem shr_toNat (x : Word) (s : ShiftAmount) : (shr x s).toNat = x.toNat / 2 ^ s.toNat := by
  rw [shr, BitVec.toNat_ushiftRight, Nat.shiftRight_eq_div_pow]

theorem cadd_false (n q : Word) : cadd n q false = q := rfl

theorem cadd_true (n q : Word) : cadd n q true = ((n - q) >>> 1) + q := rfl

theorem wdiv_quot_toNat (l : ShiftAmount) (d : Word) (h : d ≠ 0#64) :
    (wdiv l d h).quot.toNat = 2 ^ (64 + l.toNat) / d.toNat := by
  have hl : 2 ^ (64 + l.toNat) < 2 ^ 128 := Nat.pow_lt_pow_right (by omega) (by have := l.isLt; omega)
  rw [wdiv, BitVec.toNat_ofNat, Nat.mod_eq_of_lt (lt_of_le_of_lt (Nat.div_le_self _ _) hl)]

theorem wdiv_rem_toNat (l : ShiftAmount) (d : Word) (h : d ≠ 0#64) :
    (wdiv l d h).rem.toNat = 2 ^ (64 + l.toNat) % d.toNat := by
  have := Nat.mod_lt (2 ^ (64 + l.toNat)) (toNat_pos_of_ne_zero h)
  rw [wdiv, BitVec.toNat_ofNat, Nat.mod_eq_of_lt (this.trans d.isLt)]

theorem zextShift_toNat (s : ShiftAmount) : (zextShift s).toNat = s.toNat := by
  have := s.isLt
  rw [zextShift, BitVec.toNat_setWidth, Nat.mod_eq_of_lt (by omega)]

theorem zextAdd_toNat (a : Bool) : (zextAdd a).toNat = a.toNat := by cases a <;> rfl

end Sys2Proof.Machine
end

