-- ==== Sys2Proof/Tests/Slice0.lean ====
section
/-! SUPPORT. Small tests. Every expected value is the spec's: its worked examples (`41_construct.md` R87, `42_apply.md` R103,
`43_readback.md`) and its vectors (`95_test_vectors.md`), the place named at each test. The second half shows, for each
statement with hypotheses, states and operands that meet them. -/

namespace Sys2Proof.Tests

open Sys2Proof Sys2Proof.Machine

/-- A state with the slot `o` and nothing given or answered. -/
def slot (o : Option Descriptor) : State := { err := false, desc := o, pending := [], responses := [] }

/-- The next state of an outcome, if it is one. -/
def next? : Result → Option State
  | .next s => some s
  | .fault _ => none
  | .refused _ => none

/-- The descriptors of the divisors 7, 10, 4096, 1 and 2^64 - 1 (R87). -/
def d7 : Descriptor := ⟨7#64, 0x2492492492492493#64, 2#6, true⟩
def d10 : Descriptor := ⟨10#64, 0xCCCCCCCCCCCCCCCD#64, 3#6, false⟩
def d4096 : Descriptor := ⟨4096#64, 0#64, 12#6, false⟩
def d1 : Descriptor := ⟨1#64, 0#64, 0#6, false⟩
def dMax : Descriptor := ⟨0xFFFFFFFFFFFFFFFF#64, 0x8000000000000001#64, 63#6, false⟩

/-- A response of success, and one of a fault. -/
def ok (data : Word) : Response := ⟨.success, data⟩
def bad (f : Fault) : Response := ⟨.fault f, 0#64⟩

/-! ## Well-formedness and decoding -/

-- R6, R7
theorem test_parameters : Config.W = 64 ∧ Config.WW = 2 * Config.W ∧ Config.commandBits = 8 + Config.W ∧
    Config.responseBits = Config.commandBits := by decide

-- part 2.8: words that are not well formed
theorem test_wordWf_refuses : wordWf 0x000000000000000007#72 = false ∧ wordWf 0x030000000000000005#72 = false ∧
    wordWf 0x040000000000000000#72 = false ∧ wordWf 0x030000000100000000#72 = false ∧
    wordWf 0x810000000000000007#72 = false := by decide

-- R49, R50: lines that are not well formed
theorem test_lineWf_refuses : (AsmLine.fdnew (.pow 64)).wf = false ∧ (AsmLine.fddiv (.powMinus 3 9)).wf = false ∧
    (AsmLine.fdrd 5).wf = false ∧ (AsmLine.word (2 ^ 72)).wf = false := by decide

-- part 2.8: `op` 0x01, 0x02, 0x03 in bits 71:64
theorem test_decode_fdnew : decode 0x01FFFFFFFFFFFFFFFF#72 = .legal (.fdnew 0xFFFFFFFFFFFFFFFF#64) := by decide
theorem test_decode_fddiv : decode 0x020000000000000064#72 = .legal (.fddiv 0x64#64) := by decide
theorem test_decode_fdrdDivisor : decode 0x030000000000000000#72 = .legal .fdrdDivisor := by decide
theorem test_decode_fdrdMult : decode 0x030000000000000001#72 = .legal .fdrdMult := by decide
theorem test_decode_fdrdShift : decode 0x030000000000000002#72 = .legal .fdrdShift := by decide
theorem test_decode_fdrdAdd : decode 0x030000000000000003#72 = .legal .fdrdAdd := by decide
theorem test_decode_fdrdStatus : decode 0x030000000000000004#72 = .legal .fdrdStatus := by decide

-- part 2.8: the whole `arg` is matched, and bit 71 is not ignored
theorem test_decode_illegal : decode 0x038000000000000004#72 = .illegal ∧ decode 0x810000000000000007#72 = .illegal ∧
    decode 0x000000000000000000#72 = .illegal ∧ decode 0xFFFFFFFFFFFFFFFFFF#72 = .illegal := by decide

-- R47
theorem test_encode_words : encode (.fdnew 7#64) = 0x010000000000000007#72 ∧
    encode (.fddiv 7#64) = 0x020000000000000007#72 ∧ encode .fdrdStatus = 0x030000000000000004#72 := by decide

-- log entry 5: the table's `match` of FDRD.ADD, a short table word, a word longer than a command
theorem test_decodeTableWord : decodeTableWord 72 0x030000000000000003 = some .fdrdAdd ∧
    decodeTableWord 64 0x030000000000000003 = none ∧ decodeTableWord 80 0x030000000000000003 = none := by decide

-- the first command after reset
theorem test_fetch_after_reset :
    next? (step (State.reset.withFetchWord 72 0x010000000000000007)) =
      some { slot (some d7) with responses := [ok 0#64] } := by decide

/-! ## The units -/

-- part 2.1
theorem test_flog2 : flog2 1#64 (by decide) = 0#6 ∧ flog2 0x7FFFFFFFFFFFFFFF#64 (by decide) = 62#6 ∧
    flog2 0x100000000#64 (by decide) = 32#6 ∧ flog2 0xFFFFFFFFFFFFFFFF#64 (by decide) = 63#6 := by decide
theorem test_ispow2 : ispow2 0x100000000#64 (by decide) = true ∧ ispow2 0x100000001#64 (by decide) = false := by decide

-- part 2.2
theorem test_mulhi : mulhi 0x0123456789ABCDEF#64 0xFEDCBA9876543210#64 = 0x0121FA00AD77D742#64 ∧
    mulhi 0xFFFFFFFFFFFFFFFF#64 0xFFFFFFFFFFFFFFFF#64 = 0xFFFFFFFFFFFFFFFE#64 := by decide
theorem test_mulhiPartial : mulhiPartial 0x0123456789ABCDEF#64 0xFEDCBA9876543210#64 = 0x0121FA00AD77D742 := by decide

-- part 2.3
theorem test_cadd : cadd 0xFFFFFFFFFFFFFFFF#64 2#64 true = 0x8000000000000000#64 ∧ cadd 3#64 0#64 true = 1#64 ∧
    cadd 100#64 14#64 false = 14#64 := by decide

-- part 2.4
theorem test_shr : shr 0x8000000000000000#64 63#6 = 1#64 ∧ shr 0x8000000000000000#64 1#6 = 0x4000000000000000#64 ∧
    shr 0xDEADBEEFCAFEF00D#64 4#6 = 0x0DEADBEEFCAFEF00#64 := by decide

-- part 2.5
theorem test_wdiv : wdiv 9#6 641#64 (by decide) = ⟨0xCC7B01FF3384FE00#128, 512#64⟩ ∧
    wdiv 63#6 0xFFFFFFFFFFFFFFFE#64 (by decide) = ⟨0x8000000000000001#128, 2#64⟩ := by decide

/-! ## The commands -/

-- R87 and part 2.6: one divisor of each path, the boundary `e == 2^L`, and 641 (`90_conflicts.md` C3)
theorem test_fdnew_paths : construct 7#64 (by decide) = d7 ∧ construct 10#64 (by decide) = d10 ∧
    construct 4096#64 (by decide) = d4096 ∧
    construct 274177#64 (by decide) = ⟨274177#64, 0xE9878CE68807FFFF#64, 18#6, true⟩ ∧
    construct 641#64 (by decide) = ⟨641#64, 0xCC7B01FF3384FE01#64, 9#6, false⟩ ∧
    construct 0xFFFFFFFFFFFFFFFE#64 (by decide) = ⟨0xFFFFFFFFFFFFFFFE#64, 3#64, 63#6, true⟩ := by decide

-- program P3, command 10: a failed FDNEW empties a full slot
theorem test_fdnew_zero : next? (exec (.fdnew 0#64) (slot (some d10))) =
    some { slot none with err := true, responses := [bad .invalidDivisor] } := by decide

-- R103: the add path with the largest dividend, no-add, bypass
theorem test_fddiv_paths : quotient d7 0xFFFFFFFFFFFFFFFF#64 = 0x2492492492492492#64 ∧
    quotient d10 12345#64 = 1234#64 ∧ quotient d4096 0xFFFFFFFFFFFFFFFF#64 = 0x000FFFFFFFFFFFFF#64 ∧
    quotient dMax 0xFFFFFFFFFFFFFFFE#64 = 0#64 ∧ quotient dMax 0xFFFFFFFFFFFFFFFF#64 = 1#64 := by decide

-- program P1, command 7
theorem test_fddiv_response : next? (exec (.fddiv 100#64) (slot (some d7))) =
    some { slot (some d7) with responses := [ok 14#64] } := by decide

-- the examples of R105 to R108
theorem test_fdrdDivisor : next? (exec .fdrdDivisor (slot (some d7))) =
    some { slot (some d7) with responses := [ok 7#64] } := by decide
theorem test_fdrdMult : next? (exec .fdrdMult (slot (some d7))) =
    some { slot (some d7) with responses := [ok 0x2492492492492493#64] } := by decide
theorem test_fdrdShift : next? (exec .fdrdShift (slot (some d7))) =
    some { slot (some d7) with responses := [ok 2#64] } := by decide
theorem test_fdrdAdd : next? (exec .fdrdAdd (slot (some d7))) =
    some { slot (some d7) with responses := [ok 1#64] } := by decide

-- part 2.8: the field read-backs after reset
theorem test_fdrd_empty : next? (exec .fdrdShift State.reset) =
    some { State.reset with err := true, responses := [bad .noDescriptor] } := by decide

-- R109: the four data values
theorem test_fdrdStatus : statusData (slot none) = 0#64 ∧ statusData (slot (some d7)) = 1#64 ∧
    statusData { slot none with err := true } = 2#64 ∧ statusData { slot (some d7) with err := true } = 3#64 := by decide

-- R118: an illegal word with an empty slot; R42: its response word
theorem test_illegal_word : next? (step { slot none with pending := [.command 0x030000000000000005#72] }) =
    some { slot none with err := true, responses := [bad .illegalCommand] } ∧
    (bad .illegalCommand).word = 0x030000000000000000#72 := by decide

-- R86: the add-path divisors below 40
theorem test_add_path_divisors :
    ((List.range 40).filter fun n =>
      if h : BitVec.ofNat 64 n ≠ 0#64 then (construct (BitVec.ofNat 64 n) h).add else false) =
    [7, 14, 21, 23, 25, 28, 29, 31, 39] := by decide

/-! ## The assembler notation (R49, R50) -/

-- the lines "FDNEW 7", "FDDIV 2^64 - 1 ; x" and ".word 03_0000000000000005"
theorem test_assemble : assemble
    [['F', 'D', 'N', 'E', 'W', ' ', '7'],
     ['F', 'D', 'D', 'I', 'V', ' ', '2', '^', '6', '4', ' ', '-', ' ', '1', ' ', ';', ' ', 'x'],
     ['.', 'w', 'o', 'r', 'd', ' ', '0', '3', '_', '0', '0', '0', '0', '0', '0', '0', '0', '0', '0', '0', '0', '0', '0', '0', '5']] =
    some [0x010000000000000007#72, 0x02FFFFFFFFFFFFFFFF#72, 0x030000000000000005#72] := by decide

-- "FDRD 1" is FDRD.MULT; "FDRD.STATUS"; a hexadecimal operand; a line that is no command
theorem test_assemble_read_back :
    assemble [['F', 'D', 'R', 'D', ' ', '1']] = some [encode .fdrdMult] ∧
    assemble [kwFdrdStatus, [' ', ';', 'x']] = some [encode .fdrdStatus] ∧
    assemble [['F', 'D', 'D', 'I', 'V', ' ', '0', 'x', 'F', 'F']] = some [encode (.fddiv 255#64)] ∧
    assemble [['F', 'D', 'N', 'E', 'W']] = none ∧ assemble [['f', 'd', 'n', 'e', 'w', ' ', '7']] = none := by decide

/-! ## Witnesses: each statement's hypotheses can be met, at the edges of their ranges -/

theorem test_witness_EncodeDecodeInverse : decode 0x02FFFFFFFFFFFFFFFF#72 = .legal (.fddiv 0xFFFFFFFFFFFFFFFF#64) := by
  decide

/-- A state about to take the word `w`. -/
def about (o : Option Descriptor) (w : CommandWord) : State := { slot o with pending := [.command w] }

theorem test_witness_IllegalWordsFault :
    ((about (some d7) 0x030000000000000005#72).pending = .command 0x030000000000000005#72 :: [] ∧
      decode 0x030000000000000005#72 = .illegal) ∧
    decode 0x00FFFFFFFFFFFFFFFF#72 = .illegal ∧ decode 0x040000000000000000#72 = .illegal := by decide

theorem test_witness_ResponseWordHoldsStatusAndData : (ok 5#64).word = (ok 5#64).word := rfl

theorem test_witness_PseudoReadBackIsSameWord : 5 ≤ 5 := by decide

theorem test_witness_AssemblerLineWords :
    ((AsmLine.fdrd 4).commandWord = some (encode .fdrdStatus) ∧ ∀ n, AsmLine.fdrd 4 ≠ .word n) ∧
    ((NumExpr.powMinus 64 1).value = some (2 ^ 64 - 1) ∧ 2 ^ 64 - 1 < 2 ^ 64) := by
  refine ⟨⟨by decide, fun n h => ?_⟩, by decide⟩
  cases h

theorem test_witness_StepRunsDecodedCommand :
    ((about none (encode .fdrdStatus)).pending = .command (encode .fdrdStatus) :: [] ∧
      decode (encode .fdrdStatus) = .legal .fdrdStatus) ∧
    decodeTableWord 72 0x030000000000000004 = some .fdrdStatus := by decide

theorem test_witness_ResetInputLeavesResetState :
    ({ slot (some d7) with pending := [.reset, .reset] } : State).pending = .reset :: [.reset] := rfl

theorem test_witness_NoInputNoChange : (slot (some d7)).pending = [] := rfl

theorem test_witness_CommandStreamAnsweredInOrder :
    ({ slot none with pending := [.command 0#72, .reset] } : State).pending = [0#72].map .command ++ [.reset] ∧
    0 < [0#72].length := by decide

theorem test_witness_ResetStateHasNoDescriptor :
    Instr.fdrdAdd = .fdrdDivisor ∨ Instr.fdrdAdd = .fdrdMult ∨ Instr.fdrdAdd = .fdrdShift ∨ Instr.fdrdAdd = .fdrdAdd ∨
      ∃ n, Instr.fdrdAdd = .fddiv n := .inr (.inr (.inr (.inl rfl)))

/-- The smallest and the largest divisor; for the statements whose only hypothesis is that the divisor is not 0
(`FdnewWritesDescriptor`, `ConstructClosedForms`, `FddivExactAfterFdnew`, `FlogTwoIsHighestSetBit`, `IspowTwoIsExact`, and the
last clauses of `ReadBackDivisor`, `ReadBackMult`, `ReadBackShift`). -/
theorem test_witness_divisor_not_zero : 1#64 ≠ 0#64 ∧ 0xFFFFFFFFFFFFFFFF#64 ≠ 0#64 := by decide

theorem test_witness_FdnewPowerOfTwo : (1#64).toNat = 2 ^ (0#6).toNat ∧
    (0x8000000000000000#64).toNat = 2 ^ (63#6).toNat := by decide

theorem test_witness_FdnewNoAddPath :
    (2 ^ (1#6).toNat < (3#64).toNat ∧ (3#64).toNat < 2 ^ ((1#6).toNat + 1) ∧
      (3#64).toNat - 2 ^ (64 + (1#6).toNat) % (3#64).toNat < 2 ^ (1#6).toNat) ∧
    (2 ^ (63#6).toNat < (0xFFFFFFFFFFFFFFFF#64).toNat ∧ (0xFFFFFFFFFFFFFFFF#64).toNat < 2 ^ ((63#6).toNat + 1) ∧
      (0xFFFFFFFFFFFFFFFF#64).toNat - 2 ^ (64 + (63#6).toNat) % (0xFFFFFFFFFFFFFFFF#64).toNat < 2 ^ (63#6).toNat) := by
  decide

/-- 7, and the boundary 274177, where the error term is exactly `2^L`. -/
theorem test_witness_FdnewAddPath :
    (2 ^ (2#6).toNat < (7#64).toNat ∧ (7#64).toNat < 2 ^ ((2#6).toNat + 1) ∧
      2 ^ (2#6).toNat ≤ (7#64).toNat - 2 ^ (64 + (2#6).toNat) % (7#64).toNat) ∧
    (2 ^ (18#6).toNat < (274177#64).toNat ∧ (274177#64).toNat < 2 ^ ((18#6).toNat + 1) ∧
      2 ^ (18#6).toNat ≤ (274177#64).toNat - 2 ^ (64 + (18#6).toNat) % (274177#64).toNat) := by decide

/-- For `CandidateBounds`, `ErrorTermMeaning`, the last clauses of `ShiftIsFloorLog` and of `WdivIsExact`: the smallest and the
largest divisor that is no power of two. -/
theorem test_witness_not_power_of_two :
    ispow2 3#64 (by decide) = false ∧ ispow2 0xFFFFFFFFFFFFFFFF#64 (by decide) = false := by decide

theorem test_witness_IncrementNeverFires :
    (ispow2 7#64 (by decide) = false ∧ candidateExact 7#64 (by decide) = false) ∧
    (ispow2 0xFFFFFFFFFFFFFFFE#64 (by decide) = false ∧ candidateExact 0xFFFFFFFFFFFFFFFE#64 (by decide) = false) := by
  decide

theorem test_witness_MultZeroOnlyForPowersOfTwo :
    (ispow2 3#64 (by decide) = false ∧ (construct 3#64 (by decide)).add = false) ∧
    (ispow2 7#64 (by decide) = false ∧ (construct 7#64 (by decide)).add = true) ∧
    (construct 1#64 (by decide)).mult = 0#64 ∧ ispow2 1#64 (by decide) = true := by decide

theorem test_witness_ShiftIsFloorLog : (construct 1#64 (by decide)).shift = 0#6 := by decide

theorem test_witness_StrictBoundaryTakesAddPath :
    ispow2 274177#64 (by decide) = false ∧
    (errorTerm 274177#64 (by decide)).toNat = 2 ^ (flog2 274177#64 (by decide)).toNat := by decide

theorem test_witness_FddivWithoutDescriptorFaults : (slot none).desc = none := rfl

theorem test_witness_FddivBypass : (slot (some d1)).desc = some d1 ∧ d1.mult = 0#64 := by decide

theorem test_witness_FddivNoAddPath : (slot (some dMax)).desc = some dMax ∧ dMax.mult ≠ 0#64 ∧ dMax.add = false := by
  decide

theorem test_witness_FddivAddPath : (slot (some d7)).desc = some d7 ∧ d7.mult ≠ 0#64 ∧ d7.add = true := by decide

theorem test_witness_FddivIsPure :
    (slot (some d7)).desc = some ⟨7#64, 0x2492492492492493#64, 2#6, true⟩ := rfl

theorem test_witness_QuotientCornerCases :
    (6#64).toNat < (7#64).toNat ∧ (construct 0x8000000000000000#64 (by decide)).shift = 63#6 := by decide

theorem test_witness_FddivRightAfterFdnew :
    ({ slot (some d10) with
        pending := [.command (encode (.fdnew 7#64)), .command (encode (.fddiv 100#64)), .reset] } : State).pending =
      .command (encode (.fdnew 7#64)) :: .command (encode (.fddiv 100#64)) :: [.reset] ∧ 7#64 ≠ 0#64 := by decide

/-- For the first two clauses of `ReadBackDivisor`, `ReadBackMult`, `ReadBackShift` and `ReadBackAdd`. -/
theorem test_witness_ReadBack : (slot none).desc = none ∧ (slot (some dMax)).desc = some dMax := by decide

theorem test_witness_ReadOnlyCommandsKeepState :
    readOnly (.fddiv 0#64) = true ∧
    next? (exec (.fddiv 0#64) (slot (some d7))) = some { slot (some d7) with responses := [ok 0#64] } ∧
    (ok 0#64).status = .success := by decide

theorem test_witness_ReadOnlyCommandsCommute :
    ((slot (some d7)).desc = some d7 ∧ readOnly .fdrdMult = true ∧ readOnly (.fddiv 100#64) = true) ∧
    ((slot none).desc = none ∧ readOnly .fdrdMult = true ∧ readOnly .fdrdStatus = true ∧
      (Instr.fdrdMult ≠ .fdrdStatus ∨ Instr.fdrdStatus ≠ .fdrdStatus)) := by decide

theorem test_witness_ReadOnlyStreamAnswers :
    ({ slot (some d7) with pending := [.command (encode .fdrdMult), .reset] } : State).desc = some d7 ∧
    (slot (some d7)).err = false ∧ (∀ i ∈ [Instr.fdrdMult], readOnly i = true) ∧
    ({ slot (some d7) with pending := [.command (encode .fdrdMult), .reset] } : State).pending =
      [Instr.fdrdMult].map (fun i => .command (encode i)) ++ [.reset] := by decide

/-- A step for each of the three ways: nothing written, written, emptied. -/
theorem test_witness_OnlyFdnewWritesDescriptor :
    next? (step (about (some d7) (encode .fdrdMult))) =
      some { slot (some d7) with responses := [ok 0x2492492492492493#64] } ∧
    next? (step (about none (encode (.fdnew 10#64)))) = some { slot (some d10) with responses := [ok 0#64] } ∧
    next? (step (about (some d7) (encode (.fdnew 0#64)))) =
      some { slot none with err := true, responses := [bad .invalidDivisor] } := by decide

theorem test_witness_ReadBackStatus : Instr.fddiv 100#64 ≠ .fdrdStatus := by decide

theorem test_witness_ErrIsStickyAndInert :
    ((about none (encode .fdrdStatus)).pending = .command (encode .fdrdStatus) :: [] ∧
      next? (step (about none (encode .fdrdStatus))) = some { slot none with responses := [ok 0#64] }) ∧
    next? (step { slot (some d7) with err := true, pending := [.reset] }) = some (slot none) ∧
    Instr.fdrdMult ≠ .fdrdStatus := by decide

theorem test_witness_FaultsRaisedExactlyByTheirCause :
    (about none (encode .fdrdMult)).pending = .command (encode .fdrdMult) :: [] ∧
    decode (encode .fdrdMult) = .legal .fdrdMult ∧ (bad .noDescriptor).status ≠ .success := by decide

/-- One step for each fault; the first is also the witness of `EngineGoesOnAfterFault`. -/
theorem test_witness_FaultEntryEffect :
    next? (step { slot (some d7) with pending := [.command (encode (.fdnew 0#64)), .command (encode (.fdnew 10#64))] }) =
      some { slot none with
        err := true, pending := [.command (encode (.fdnew 10#64))], responses := [bad .invalidDivisor] } ∧
    next? (step (about none (encode .fdrdAdd))) =
      some { slot none with err := true, responses := [bad .noDescriptor] } ∧
    next? (step (about (some d7) 0#72)) =
      some { slot (some d7) with err := true, responses := [bad .illegalCommand] } := by decide

theorem test_witness_DescriptorTableKept : (about (some d7) (encode (.fdnew 10#64))).TabledInv ∧
    next? (step (about (some d7) (encode (.fdnew 10#64)))) = some { slot (some d10) with responses := [ok 0#64] } := by
  refine ⟨fun d h => ?_, by decide⟩
  obtain rfl : d7 = d := by simpa [about, slot] using h
  exact .inr (.inr (by unfold Descriptor.addRow noAddCondition; decide))

theorem test_witness_ExactQuotientKept : (about (some d1) (encode (.fdnew 10#64))).ExactInv ∧
    next? (step (about (some d1) (encode (.fdnew 10#64)))) = some { slot (some d10) with responses := [ok 0#64] } := by
  refine ⟨fun d h => ?_, by decide⟩
  obtain rfl : d1 = d := by simpa [about, slot] using h
  exact ⟨by decide, fun n => by simp [quotient, d1, iszero, shr]⟩

theorem test_witness_ErrRecordsFaultsKept :
    ({ slot none with err := true, responses := [ok 1#64, bad .noDescriptor] } : State).ErrInv ∧
    next? (step { slot none with err := true, responses := [ok 1#64, bad .noDescriptor] }) =
      some { slot none with err := true, responses := [ok 1#64, bad .noDescriptor] } ∧
    (slot none).ErrInv := by
  unfold State.ErrInv
  decide

theorem test_witness_MulhiBelowOperands : 1#64 ≠ 0#64 ∧ mulhi 7#64 0#64 = 0#64 := by decide

theorem test_witness_CaddIsHalfOfSum : (0xFFFFFFFFFFFFFFFF#64).toNat ≤ (0xFFFFFFFFFFFFFFFF#64).toNat ∧
    (0#64).toNat ≤ (0#64).toNat := by decide

theorem test_witness_FlogTwoIsHighestSetBit : 2 ^ 63 ≤ (0xFFFFFFFFFFFFFFFF#64).toNat ∧
    (0xFFFFFFFFFFFFFFFF#64).toNat < 2 ^ (63 + 1) ∧ 2 ^ 0 ≤ (1#64).toNat ∧ (1#64).toNat < 2 ^ (0 + 1) := by decide

end Sys2Proof.Tests
end

/-! # What `ERR` records, and the slot after reset (`10_state.md` R19, R25; `70_reset_and_hazards.md` R131, R134) -/

namespace Sys2Proof.Machine

/-! ## One step, by the next input -/

theorem step_nil {s : State} (hp : s.pending = []) : step s = .next s := by
  simp only [step, takeInput_nil hp, idle]

theorem step_reset {s : State} {rest : List Input} (hp : s.pending = .reset :: rest) :
    step s = .next { State.reset with pending := rest } := by
  simp only [step, takeInput_cons hp, takeReset]

theorem step_legal {s : State} {w : CommandWord} {rest : List Input} {i : Instr}
    (hp : s.pending = .command w :: rest) (hd : decode w = .legal i) :
    step s = exec i { s with pending := rest } := by
  simp only [step, takeInput_cons hp, hd]

theorem step_illegal {s : State} {w : CommandWord} {rest : List Input}
    (hp : s.pending = .command w :: rest) (hd : decode w = .illegal) :
    step s = raise .illegalCommand { s with pending := rest } := by
  simp only [step, takeInput_cons hp, hd, takeIllegal]

/-! ## Every command answers once, and `ERR` remembers a fault -/

/-- `t` is what `s` becomes by answering `r`: no input is taken, `r` is the newest response, and `ERR` is set when `r` is a
fault and kept otherwise (`10_state.md` R19). The slot is left open. -/
structure Answered (r : Response) (s t : State) : Prop where
  pending_eq : t.pending = s.pending
  responses_eq : t.responses = s.responses ++ [r]
  err_iff : t.err = true ↔ s.err = true ∨ r.status ≠ .success

theorem respond_answers (data : Word) (s : State) :
    ∃ t, respond data s = .next t ∧ Answered { status := .success, data := data } s t :=
  ⟨_, respond_eq data s, rfl, rfl, by simp⟩

theorem raise_answers (f : Fault) (s : State) :
    ∃ t, raise f s = .next t ∧ Answered { status := .fault f, data := 0#64 } s t :=
  ⟨_, raise_eq f s, rfl, rfl, by simp⟩

/-- Every command answers once: it responds or it raises, and a slot written before the response changes nothing of this. -/
theorem exec_answers (i : Instr) (s : State) : ∃ t r, exec i s = .next t ∧ Answered r s t := by
  obtain ⟨data, -, -, he⟩ | ⟨d, hd, -, he⟩ | ⟨-, he⟩ | ⟨-, -, -, he⟩ := exec_cases i s <;> rw [he]
  · exact exists_comm.mp ⟨_, respond_answers data s⟩
  · obtain ⟨t, ht, hp, hr, herr⟩ := respond_answers 0#64 (writeDescriptor (construct d hd) s)
    exact ⟨t, _, ht, hp, hr, herr⟩
  · exact exists_comm.mp ⟨_, raise_answers .invalidDivisor s⟩
  · exact exists_comm.mp ⟨_, raise_answers .noDescriptor s⟩

/-- Every command word is answered once, legal or not. -/
theorem step_command_answers {s : State} {w : CommandWord} {rest : List Input}
    (hp : s.pending = .command w :: rest) :
    ∃ t r, step s = .next t ∧ Answered r { s with pending := rest } t := by
  cases hd : decode w with
  | legal i => rw [step_legal hp hd]; exact exec_answers i _
  | illegal => rw [step_illegal hp hd]; exact exists_comm.mp ⟨_, raise_answers .illegalCommand _⟩

/-! ## The invariant of `ERR` -/

/-- The invariant speaks of `ERR` and the responses only, so it holds after reset whatever is still to come. -/
theorem errInv_reset_pending (xs : List Input) : ({ State.reset with pending := xs } : State).ErrInv := by
  simp [State.ErrInv, State.reset]

theorem Answered.errInv {r : Response} {s t : State} (h : Answered r s t) (hs : s.ErrInv) : t.ErrInv := by
  unfold State.ErrInv at hs ⊢
  rw [h.err_iff, h.responses_eq, hs]
  simp [or_and_right, exists_or]

theorem step_errInv {s t : State} (hs : s.ErrInv) (ht : step s = .next t) : t.ErrInv := by
  rcases hp : s.pending with _ | ⟨w | _, rest⟩
  · cases (step_nil hp).symm.trans ht
    exact hs
  · obtain ⟨u, r, hu, ha⟩ := step_command_answers hp
    cases hu.symm.trans ht
    exact ha.errInv hs
  · cases (step_reset hp).symm.trans ht
    exact errInv_reset_pending rest

/-- With the invariant, `ERR` is 0 exactly when no response was a fault. -/
theorem State.ErrInv.clean_iff {s : State} (h : s.ErrInv) :
    clean s = true ↔ ∀ r ∈ s.responses, r.status = .success := by
  have hc : clean s = true ↔ ¬ s.err = true := by simp [clean]
  simpa using hc.trans (not_congr h)

/-! ## Runs -/

/-- What every step keeps, every run keeps. -/
theorem run_keeps {P : State → Prop} (hstep : ∀ s t, P s → step s = .next t → P t) {k : Nat} {s t : State} (hs : P s)
    (ht : Host.Core.run Sys2Proof.core k s = .next t) : P t := by
  induction k generalizing s with
  | zero => cases ht; exact hs
  | succ k ih =>
    cases hu : step s with
    | next u => exact ih (hstep s u hs hu) ((run_succ core k s u hu).symm.trans ht)
    | fault f => simp [Host.Core.run, core, hu] at ht
    | refused f => simp [Host.Core.run, core, hu] at ht

/-- A stream of command words is taken to its end, with one response per word. -/
theorem run_commands_answers (ws : List CommandWord) (s : State) (rest : List Input)
    (hp : s.pending = ws.map .command ++ rest) :
    ∃ t rs, Host.Core.run Sys2Proof.core ws.length s = .next t ∧ t.pending = rest ∧
      t.responses = s.responses ++ rs ∧ rs.length = ws.length := by
  induction ws generalizing s with
  | nil => exact ⟨s, [], rfl, hp, (List.append_nil _).symm, rfl⟩
  | cons w ws ih =>
    obtain ⟨u, r, hu, ha⟩ := step_command_answers hp
    obtain ⟨t, rs, ht, htp, htr, hlen⟩ := ih u ha.pending_eq
    refine ⟨t, r :: rs, (run_succ core ws.length s u hu).trans ht, htp, ?_, by simp [hlen]⟩
    rw [htr, ha.responses_eq, List.append_assoc, List.singleton_append]

/-! ## The two outcomes of `FDNEW` -/

theorem execFdnew_zero (s : State) : execFdnew 0#64 s = raise .invalidDivisor s := by
  rw [execFdnew, dif_pos (iszero_iff.mpr rfl)]

theorem execFdnew_of_ne_zero {d : Word} (h : d ≠ 0#64) (s : State) :
    execFdnew d s = respond 0#64 (writeDescriptor (construct d h) s) := by
  rw [execFdnew, dif_neg (mt iszero_iff.mp h)]

/-! ## `ERR` is inert -/

/-- The meaning `f` does the same to everything but `ERR`, whatever `ERR` was. -/
def ErrInert (f : State → Result) : Prop :=
  ∀ (s : State) (b : Bool), ∃ t c, f s = .next t ∧ f { s with err := b } = .next { t with err := c }

theorem errInert_respond (data : Word) : ErrInert (respond data) :=
  fun _ b => ⟨_, b, rfl, rfl⟩

theorem errInert_raise (f : Fault) : ErrInert (raise f) :=
  fun s b => ⟨_, true, raise_eq f s, raise_eq f { s with err := b }⟩

theorem errInert_execFdnew (d : Word) : ErrInert (execFdnew d) := by
  intro s b
  by_cases h : d = 0#64
  · subst h
    rw [execFdnew_zero, execFdnew_zero]
    exact errInert_raise .invalidDivisor s b
  · rw [execFdnew_of_ne_zero h, execFdnew_of_ne_zero h]
    exact errInert_respond 0#64 (writeDescriptor (construct d h) s) b

/-- A command that answers from the descriptor alone does not see `ERR`. -/
theorem errInert_withDescriptor (g : Descriptor → Word) :
    ErrInert (fun s => withDescriptor s (fun d => respond (g d) s)) := by
  intro s b
  obtain hd | ⟨d, hd⟩ := s.desc.eq_none_or_eq_some
  · obtain ⟨t, c, ht, hb⟩ := errInert_raise .noDescriptor s b
    exact ⟨t, c, (withDescriptor_none hd _).trans ht, (withDescriptor_none (s := { s with err := b }) hd _).trans hb⟩
  · obtain ⟨t, c, ht, hb⟩ := errInert_respond (g d) s b
    exact ⟨t, c, (withDescriptor_some hd _).trans ht, (withDescriptor_some (s := { s with err := b }) hd _).trans hb⟩

theorem errInert_exec {i : Instr} (hi : i ≠ .fdrdStatus) : ErrInert (exec i) := by
  cases i with
  | fdnew d => exact errInert_execFdnew d
  | fddiv n => exact errInert_withDescriptor (quotient · n)
  | fdrdDivisor => exact errInert_withDescriptor Descriptor.divisor
  | fdrdMult => exact errInert_withDescriptor Descriptor.mult
  | fdrdShift => exact errInert_withDescriptor (zextShift ·.shift)
  | fdrdAdd => exact errInert_withDescriptor (zextAdd ·.add)
  | fdrdStatus => exact absurd rfl hi

theorem statusData_getLsbD_one (s : State) : (statusData s).getLsbD 1 = s.err := by
  unfold statusData
  cases s.err <;> cases s.valid <;> rfl

/-! ## The empty slot -/

/-- With an empty slot every command that reads the descriptor raises `NoDescriptor` (`60_exceptions.md` R114). -/
theorem exec_of_desc_none {i : Instr} {s : State} (hs : s.desc = none) (hi : readOnly i = true)
    (hne : i ≠ .fdrdStatus) : exec i s = raise .noDescriptor s := by
  cases i with
  | fdnew d => cases hi
  | fdrdStatus => exact absurd rfl hne
  | _ => exact withDescriptor_none hs _

end Sys2Proof.Machine

namespace Sys2Proof.Proofs

open Sys2Proof.Machine

/-- Settles O51: a step answers once, resets, or does nothing, and each of the three keeps the invariant. -/
theorem errRecordsFaultsKept : Obligations.ErrRecordsFaultsKept :=
  fun _ _ => step_errInv

/-- Settles O45, clause by clause: one answer per word, reset, the status bit, and `ERR` inert for the other commands. -/
theorem errIsStickyAndInert : Obligations.ErrIsStickyAndInert := by
  refine ⟨fun s t w rest hp ht => ?_, fun s t rest hp ht => ?_, fun s => ?_, fun i s b hi => errInert_exec hi s b⟩
  · obtain ⟨u, r, hu, ha⟩ := step_command_answers hp
    cases hu.symm.trans ht
    exact ⟨r, ha.responses_eq, ha.err_iff⟩
  · cases (step_reset hp).symm.trans ht
    rfl
  · exact ⟨statusData s, statusData_getLsbD_one s, respond_eq _ s⟩

/-- Settles O52: the run ends with one response per word, and the invariant of `ERR`, true at reset, holds at its end. -/
theorem cleanRunHasNoFault : Obligations.CleanRunHasNoFault := by
  intro ws
  obtain ⟨t, rs, ht, -, hresp, hlen⟩ :=
    run_commands_answers ws (State.reset.offer (ws.map .command)) [] (List.append_nil _).symm
  have hinv : t.ErrInv := run_keeps (fun _ _ => step_errInv) (errInv_reset_pending _) ht
  refine ⟨t, ht, ?_, hinv.clean_iff⟩
  rw [hresp]
  exact hlen

/-- Settles O14: the slot is empty after reset, so each of these commands raises `NoDescriptor`. -/
theorem resetStateHasNoDescriptor : Obligations.ResetStateHasNoDescriptor := by
  refine ⟨rfl, rfl, rfl, fun i hi => ?_⟩
  have hraise : exec i State.reset = raise .noDescriptor State.reset := by
    rcases hi with rfl | rfl | rfl | rfl | ⟨n, rfl⟩ <;> exact exec_of_desc_none rfl rfl (by simp)
  exact hraise.trans (raise_eq _ _)

end Sys2Proof.Proofs

/-! # Decoder, encoder and opcode map (`30_encoding.md` R44 to R50) -/

namespace Sys2Proof

open Sys2Proof.Laws

/-! ## The decoder, inverted by the fields of the word -/

/-- The read-backs are the commands with opcode 0x03, each with its selector as argument (R45). -/
theorem decodeSelector_eq_legal_iff {arg : Word} {i : Instr} :
    decodeSelector arg = .legal i ↔ i.opcode = 0x03#8 ∧ i.argument = arg := by
  constructor
  · intro h
    unfold decodeSelector at h
    split_ifs at h <;> cases h <;> exact ⟨rfl, .symm ‹_›⟩
  · rintro ⟨hop, rfl⟩
    cases i with
    | fdnew d => exact absurd hop (by decide : 0x01#8 ≠ 0x03#8)
    | fddiv n => exact absurd hop (by decide : 0x02#8 ≠ 0x03#8)
    | _ => rfl

/-- The selectors 0 to 4 are tested one after the other, so none of them is `arg` exactly from 5 on. -/
theorem decodeSelector_eq_illegal_iff {arg : Word} : decodeSelector arg = .illegal ↔ 5 ≤ arg.toNat := by
  unfold decodeSelector
  split_ifs <;> simp only [true_iff, false_iff] <;> bv_omega

theorem decode_eq_legal_iff_fields {w : CommandWord} {i : Instr} :
    decode w = .legal i ↔ i.opcode = opField w ∧ i.argument = argField w := by
  unfold decode
  split_ifs with h1 h2 h3
  · rw [h1]; cases i <;> simp [Instr.opcode, Instr.argument, eq_comm]
  · rw [h2]; cases i <;> simp [Instr.opcode, Instr.argument, eq_comm]
  · rw [h3]; exact decodeSelector_eq_legal_iff
  · have hop : i.opcode ≠ opField w := by
      cases i with
      | fdnew d => exact Ne.symm h1
      | fddiv n => exact Ne.symm h2
      | _ => exact Ne.symm h3
    simp [hop]

@[simp] theorem opField_encode (i : Instr) : opField (encode i) = i.opcode := opField_append _ _
@[simp] theorem argField_encode (i : Instr) : argField (encode i) = i.argument := argField_append _ _

theorem encode_eq_iff_fields {w : CommandWord} {i : Instr} :
    encode i = w ↔ i.opcode = opField w ∧ i.argument = argField w := by
  constructor
  · rintro rfl
    exact ⟨(opField_encode i).symm, (argField_encode i).symm⟩
  · rintro ⟨hop, harg⟩
    rw [encode, hop, harg, fields_append]

/-- Decoding and encoding are inverse to each other (R47). -/
theorem decode_eq_legal_iff {w : CommandWord} {i : Instr} : decode w = .legal i ↔ encode i = w :=
  decode_eq_legal_iff_fields.trans encode_eq_iff_fields.symm

@[simp] theorem decode_encode (i : Instr) : decode (encode i) = .legal i := decode_eq_legal_iff.mpr rfl

/-! ## The illegal words (R46) -/

/-- A word is illegal when its `op` is none of the map's three, or is the read-backs' with no selector in `arg`. -/
theorem decode_eq_illegal_iff {w : CommandWord} : decode w = .illegal ↔
    opField w ≠ 0x01#8 ∧ opField w ≠ 0x02#8 ∧ (opField w = 0x03#8 → 5 ≤ (argField w).toNat) := by
  unfold decode
  split_ifs with h1 h2 h3
  · simp [h1]
  · simp [h2]
  · simp [h3, decodeSelector_eq_illegal_iff]
  · simp [h1, h2, h3]

theorem decode_eq_illegal_iff_ranges {w : CommandWord} : decode w = .illegal ↔
    opField w = 0x00#8 ∨ 0x04 ≤ (opField w).toNat ∨ (opField w = 0x03#8 ∧ 5 ≤ (argField w).toNat) := by
  rw [decode_eq_illegal_iff]
  generalize opField w = op
  bv_omega

theorem wordWf_eq_fields (w : CommandWord) : wordWf w = ((opField w).toNat == 1 || (opField w).toNat == 2 ||
    ((opField w).toNat == 3 && decide ((argField w).toNat < 5))) := by
  rw [← wordWf_append, fields_append]

theorem decode_eq_illegal_iff_wordWf {w : CommandWord} : decode w = .illegal ↔ wordWf w = false := by
  rw [decode_eq_illegal_iff, wordWf_eq_fields]
  simp [← BitVec.toNat_inj, and_assoc]

/-! ## The rows of the opcode map (R44) -/

/-- A row that matches `op` and leaves `arg` free, as those of `FDNEW` and `FDDIV` do. -/
def operandRow (mnemonic : String) (op : BitVec 8) : OpcodeRow where
  mnemonic := mnemonic
  pattern := op ++ 0#64
  mask := BitVec.allOnes 8 ++ 0#64

/-- A row of `op = 0x03` that matches the whole `arg`, as those of the read-backs do (R45). -/
def selectorRow (mnemonic : String) (arg : Word) : OpcodeRow where
  mnemonic := mnemonic
  pattern := 0x03#8 ++ arg
  mask := BitVec.allOnes 72

@[simp] theorem operandRow_mnemonic (m : String) (op : BitVec 8) : (operandRow m op).mnemonic = m := rfl
@[simp] theorem selectorRow_mnemonic (m : String) (arg : Word) : (selectorRow m arg).mnemonic = m := rfl

theorem opcodeTable_eq_rows : opcodeTable =
    [operandRow "FDNEW" 0x01#8, operandRow "FDDIV" 0x02#8, selectorRow "FDRD.DIVISOR" 0#64,
      selectorRow "FDRD.MULT" 1#64, selectorRow "FDRD.SHIFT" 2#64, selectorRow "FDRD.ADD" 3#64,
      selectorRow "FDRD.STATUS" 4#64] := by decide

theorem append_inj_fields {op op' : BitVec 8} {arg arg' : Word} :
    op ++ arg = op' ++ arg' ↔ op = op' ∧ arg = arg' := by
  constructor
  · intro h
    have hop := congrArg opField h
    have harg := congrArg argField h
    rw [opField_append, opField_append] at hop
    rw [argField_append, argField_append] at harg
    exact ⟨hop, harg⟩
  · rintro ⟨rfl, rfl⟩; rfl

theorem operandRow_selects_iff {m : String} {op : BitVec 8} {w : CommandWord} :
    (operandRow m op).selects w = true ↔ opField w = op := by
  have hand : w &&& (BitVec.allOnes 8 ++ 0#64) = opField w ++ 0#64 := by
    conv_lhs => rw [← fields_append w]
    rw [BitVec.and_append, BitVec.and_allOnes, BitVec.and_zero]
  rw [OpcodeRow.selects, operandRow, hand, beq_iff_eq, append_inj_fields, and_iff_left rfl]

theorem selectorRow_selects_iff {m : String} {arg : Word} {w : CommandWord} :
    (selectorRow m arg).selects w = true ↔ opField w = 0x03#8 ∧ argField w = arg := by
  rw [OpcodeRow.selects, selectorRow, BitVec.and_allOnes, beq_iff_eq, ← append_inj_fields, fields_append]

theorem selectedRows_encode (i : Instr) : selectedRows (encode i) = [i.mnemonic] := by
  cases i <;>
    simp [selectedRows, opcodeTable_eq_rows, operandRow_selects_iff, selectorRow_selects_iff, Instr.opcode,
      Instr.argument, Instr.mnemonic]

theorem selectedRows_of_illegal {w : CommandWord} (h : decode w = .illegal) : selectedRows w = [] := by
  obtain ⟨h1, h2, h3⟩ := decode_eq_illegal_iff.mp h
  have hsel (k : Word) (hk : k.toNat < 5) : ¬ (opField w = 0x03#8 ∧ argField w = k) := by
    rintro ⟨hop, rfl⟩
    exact absurd (h3 hop) (by omega)
  simp [selectedRows, opcodeTable_eq_rows, operandRow_selects_iff, selectorRow_selects_iff, h1, h2, hsel]

end Sys2Proof

namespace Sys2Proof.Machine

/-- No read-back has a selector above 4 (R50). -/
theorem readBackOf_eq_none {k : Nat} (hk : 5 ≤ k) : readBackOf k = none := by
  obtain ⟨j, rfl⟩ := Nat.exists_eq_add_of_le' hk
  rfl

end Sys2Proof.Machine

namespace Sys2Proof.Proofs

open Sys2Proof.Machine

/-- Settles O1: `decode w` is the command `i` exactly when `encode i` is `w`; the words are `encode` by definition. -/
theorem encodeDecodeInverse : Obligations.EncodeDecodeInverse :=
  ⟨decode_encode, fun _ _ => decode_eq_legal_iff.mp, fun _ => rfl, fun _ => rfl, rfl, rfl, rfl, rfl, rfl⟩

/-- Settles O2: a legal word is its command's encoding, which selects its row; an illegal one selects none. -/
theorem opcodeRowsSelectDecodedCommand : Obligations.OpcodeRowsSelectDecodedCommand := by
  intro w
  cases hd : decode w with
  | legal i =>
    rw [← decode_eq_legal_iff.mp hd]
    exact selectedRows_encode i
  | illegal => exact selectedRows_of_illegal hd

/-- Settles O3: the illegal words by ranges and by `wordWf`, and the step that takes one raises `IllegalCommand`. -/
theorem illegalWordsFault : Obligations.IllegalWordsFault :=
  ⟨fun _ => decode_eq_illegal_iff_ranges, fun _ => decode_eq_illegal_iff_wordWf,
    decode_eq_illegal_iff_wordWf.mpr (by decide), decode_eq_illegal_iff_wordWf.mpr (by decide), rfl,
    fun _ _ _ hp hd => (step_illegal hp hd).trans (raise_eq _ _)⟩

/-- Settles O4: each legal word is the encoding of its command, and the last one has `op` 0x03 and `arg` above 4. -/
theorem specWordsDecode : Obligations.SpecWordsDecode :=
  ⟨decode_encode (.fdnew 7#64), decode_encode (.fdnew 0xFFFFFFFFFFFFFFFF#64), decode_encode (.fddiv 100#64),
    decode_encode .fdrdDivisor, decode_encode .fdrdMult, decode_encode .fdrdShift, decode_encode .fdrdAdd,
    decode_encode .fdrdStatus, decode_eq_illegal_iff_ranges.mpr (.inr (.inr (by decide)))⟩

/-- Settles O6: `FDRD <k>` takes its word from the read-back whose selector is `k`, and there is none from 5 on. -/
theorem pseudoReadBackIsSameWord : Obligations.PseudoReadBackIsSameWord :=
  ⟨rfl, rfl, rfl, rfl, rfl, fun _ hk => congrArg (Option.map encode) (readBackOf_eq_none hk)⟩

end Sys2Proof.Proofs

/-! # The datapath units and the paths of `FDDIV` without the adder (`40_units.md` R55 to R64, `41_construct.md` R74,
`42_apply.md` R91, R94) -/

namespace Sys2Proof.Arith

/-- Splitting both operands at bit 32 gives the four partial products and their places (R63). -/
theorem mul_eq_partial_products (a b : Nat) :
    a * b = (a / 2 ^ 32) * (b / 2 ^ 32) * 2 ^ 64 +
      ((a / 2 ^ 32) * (b % 2 ^ 32) + (a % 2 ^ 32) * (b / 2 ^ 32)) * 2 ^ 32 + (a % 2 ^ 32) * (b % 2 ^ 32) := by
  conv_lhs => rw [← Nat.div_add_mod a (2 ^ 32), ← Nat.div_add_mod b (2 ^ 32)]
  ring

/-- The 32-bit columns of a product of two-digit numbers, added with their carries, give its part from 2^64 up (R63). -/
theorem partial_products_div (ll hl lh hh : Nat) :
    (hh * 2 ^ 64 + (hl + lh) * 2 ^ 32 + ll) / 2 ^ 64 =
      hl / 2 ^ 32 + (ll / 2 ^ 32 + hl % 2 ^ 32 + lh) / 2 ^ 32 + hh := by
  omega

/-- A divisor below `2^(L+1)` leaves a quotient of 64 bits its top bit (R74). -/
theorem le_two_pow_div {D L : Nat} (hD : 0 < D) (h : D < 2 ^ (L + 1)) : 2 ^ 63 ≤ 2 ^ (64 + L) / D := by
  rw [Nat.le_div_iff_mul_le hD]
  calc 2 ^ 63 * D ≤ 2 ^ 63 * 2 ^ (L + 1) := Nat.mul_le_mul_left _ h.le
    _ = 2 ^ (64 + L) := by ring

/-- A divisor above `2^L` leaves room below `2^64 - 1`, because `2^L` itself is below `2^64 - 1` (R74). -/
theorem two_pow_div_le {D L : Nat} (hL : L < 64) (h : 2 ^ L < D) : 2 ^ (64 + L) / D ≤ 2 ^ 64 - 2 := by
  have hpow : 2 ^ L ≤ 2 ^ 63 := Nat.pow_le_pow_right (by omega) (by omega)
  have hlt : 2 ^ (64 + L) < (2 ^ 64 - 1) * D :=
    calc 2 ^ (64 + L) = 2 ^ 64 * 2 ^ L := pow_add _ _ _
      _ < (2 ^ 64 - 1) * (2 ^ L + 1) := by omega
      _ ≤ (2 ^ 64 - 1) * D := Nat.mul_le_mul_left _ h
  exact Nat.le_of_lt_succ (Nat.div_lt_of_lt_mul (by rwa [Nat.mul_comm] at hlt))

end Sys2Proof.Arith

namespace Sys2Proof.Machine

/-! ## `flog2` and the powers of two around its operand (R55, R56) -/

theorem two_pow_flog2_le (d : Word) (h : d ≠ 0#64) : 2 ^ (flog2 d h).toNat ≤ d.toNat := by
  rw [flog2_toNat]
  exact Nat.log2_self_le (toNat_pos_of_ne_zero h).ne'

theorem lt_two_pow_flog2_succ (d : Word) (h : d ≠ 0#64) : d.toNat < 2 ^ ((flog2 d h).toNat + 1) := by
  rw [flog2_toNat]
  exact Nat.lt_log2_self

theorem eq_flog2_of_bounds {d : Word} (h : d ≠ 0#64) {k : Nat} (hlo : 2 ^ k ≤ d.toNat) (hhi : d.toNat < 2 ^ (k + 1)) :
    k = (flog2 d h).toNat :=
  Arith.log_unique hlo hhi (two_pow_flog2_le d h) (lt_two_pow_flog2_succ d h)

theorem getLsbD_flog2 (d : Word) (h : d ≠ 0#64) : d.getLsbD (flog2 d h).toNat = true := by
  rw [flog2_toNat]
  exact Nat.testBit_log2 (toNat_pos_of_ne_zero h).ne'

theorem getLsbD_of_flog2_lt (d : Word) (h : d ≠ 0#64) {j : Nat} (hj : (flog2 d h).toNat < j) : d.getLsbD j = false :=
  Nat.testBit_lt_two_pow ((lt_two_pow_flog2_succ d h).trans_le (Nat.pow_le_pow_right (by omega) hj))

theorem two_pow_flog2_lt {d : Word} {h : d ≠ 0#64} (hp : ispow2 d h = false) : 2 ^ (flog2 d h).toNat < d.toNat :=
  (two_pow_flog2_le d h).lt_of_ne fun heq => by simp [(ispow2_iff d h).mpr heq.symm] at hp

/-- 1 is a power of two, so a divisor that is none is at least 2. -/
theorem one_le_flog2 {d : Word} {h : d ≠ 0#64} (hp : ispow2 d h = false) : 1 ≤ (flog2 d h).toNat := by
  have hlo := two_pow_flog2_lt hp
  have hhi := lt_two_pow_flog2_succ d h
  by_contra h0
  rw [show (flog2 d h).toNat = 0 by omega] at hlo hhi
  omega

/-! ## The multiplier-high unit (R57, R63, R64) -/

/-- The product of two 64-bit words fits 128 bits. -/
theorem setWidth_mul_toNat (a b : Word) : (a.setWidth 128 * b.setWidth 128).toNat = a.toNat * b.toNat := by
  have hlt : a.toNat * b.toNat < 2 ^ 64 * 2 ^ 64 := Nat.mul_lt_mul'' a.isLt b.isLt
  rw [BitVec.toNat_mul, BitVec.toNat_setWidth_of_le (by omega), BitVec.toNat_setWidth_of_le (by omega)]
  exact Nat.mod_eq_of_lt hlt

theorem mulhi_eq_extractLsb' (a b : Word) : mulhi a b = (a.setWidth 128 * b.setWidth 128).extractLsb' 64 64 := by
  rw [mulhi, BitVec.extractLsb', setWidth_mul_toNat, Nat.shiftRight_eq_div_pow]

theorem mulhi_comm (a b : Word) : mulhi a b = mulhi b a := by
  rw [mulhi, mulhi, Nat.mul_comm]

@[simp] theorem mulhi_zero_right (a : Word) : mulhi a 0#64 = 0#64 := by
  simp [mulhi]

@[simp] theorem mulhi_one_right (a : Word) : mulhi a 1#64 = 0#64 := by
  apply BitVec.eq_of_toNat_eq
  rw [mulhi_toNat]
  simpa using a.isLt

theorem mulhi_lt_right (a : Word) {b : Word} (hb : b ≠ 0#64) : (mulhi a b).toNat < b.toNat := by
  rw [mulhi_toNat]
  exact Nat.div_lt_of_lt_mul (Nat.mul_lt_mul_of_pos_right a.isLt (toNat_pos_of_ne_zero hb))

/-- The bounds of R64 in the right operand, with equality for 0 only. -/
theorem mulhi_right_bounds (a b : Word) :
    (mulhi a b).toNat ≤ b.toNat ∧ (mulhi a b = b ↔ b = 0#64) ∧ (b ≠ 0#64 → (mulhi a b).toNat ≤ b.toNat - 1) := by
  by_cases hb : b = 0#64
  · subst hb
    simp
  · have hlt := mulhi_lt_right a hb
    exact ⟨hlt.le, iff_of_false (fun heq => hlt.ne (congrArg BitVec.toNat heq)) hb, fun _ => Nat.le_sub_one_of_lt hlt⟩

theorem mulhi_toNat_eq_mulhiPartial (a b : Word) : (mulhi a b).toNat = mulhiPartial a b := by
  rw [mulhi_toNat, Arith.mul_eq_partial_products, Arith.partial_products_div, mulhiPartial]

/-! ## The candidate of construction (R74) -/

theorem candidate_quot_toNat (d : Word) (h : d ≠ 0#64) :
    (candidate d h).quot.toNat = 2 ^ (64 + (flog2 d h).toNat) / d.toNat :=
  wdiv_quot_toNat (flog2 d h) d h

theorem candidate_rem_toNat (d : Word) (h : d ≠ 0#64) :
    (candidate d h).rem.toNat = 2 ^ (64 + (flog2 d h).toNat) % d.toNat :=
  wdiv_rem_toNat (flog2 d h) d h

theorem candidate_quot_bounds {d : Word} {h : d ≠ 0#64} (hp : ispow2 d h = false) :
    2 ^ 63 ≤ (candidate d h).quot.toNat ∧ (candidate d h).quot.toNat ≤ 2 ^ 64 - 2 := by
  rw [candidate_quot_toNat]
  exact ⟨Arith.le_two_pow_div (toNat_pos_of_ne_zero h) (lt_two_pow_flog2_succ d h),
    Arith.two_pow_div_le (flog2 d h).isLt (two_pow_flog2_lt hp)⟩

theorem candidate_rem_bounds {d : Word} {h : d ≠ 0#64} (hp : ispow2 d h = false) :
    1 ≤ (candidate d h).rem.toNat ∧ (candidate d h).rem.toNat ≤ d.toNat - 1 := by
  rw [candidate_rem_toNat]
  exact ⟨Arith.one_le_two_pow_mod (two_pow_flog2_lt hp) (lt_two_pow_flog2_succ d h) _,
    Nat.le_sub_one_of_lt (Nat.mod_lt _ (toNat_pos_of_ne_zero h))⟩

/-! ## `FDDIV` with a descriptor in the slot (R91, R94) -/

theorem exec_fddiv_of_desc_some {s : State} {d : Descriptor} (hs : s.desc = some d) (n : Word) :
    exec (.fddiv n) s =
      .next { s with responses := s.responses ++ [{ status := .success, data := quotient d n }] } :=
  (withDescriptor_some hs _).trans (respond_eq _ s)

theorem quotient_of_mult_zero {d : Descriptor} (hm : d.mult = 0#64) (n : Word) : quotient d n = shr n d.shift := by
  rw [quotient, if_pos (iszero_iff.mpr hm)]

theorem quotient_of_mult_ne_zero {d : Descriptor} (hm : d.mult ≠ 0#64) (n : Word) :
    quotient d n = shr (cadd n (mulhi d.mult n) d.add) d.shift := by
  rw [quotient, if_neg (mt iszero_iff.mp hm)]

theorem quotient_noAdd_toNat {d : Descriptor} (hm : d.mult ≠ 0#64) (ha : d.add = false) (n : Word) :
    (quotient d n).toNat = d.mult.toNat * n.toNat / 2 ^ 64 / 2 ^ d.shift.toNat := by
  rw [quotient_of_mult_ne_zero hm, ha, cadd_false, shr_toNat, mulhi_toNat]

end Sys2Proof.Machine

namespace Sys2Proof.Proofs

open Sys2Proof.Machine

/-- Settles O21: the divisor lies strictly between `2^L` and `2^(L+1)`, and every bound follows from that. -/
theorem candidateBounds : Obligations.CandidateBounds := by
  intro d h hp
  obtain ⟨hqlo, hqhi⟩ := candidate_quot_bounds hp
  obtain ⟨hrlo, hrhi⟩ := candidate_rem_bounds hp
  exact ⟨candidate_quot_toNat d h, candidate_rem_toNat d h, two_pow_flog2_lt hp, lt_two_pow_flog2_succ d h,
    hqlo, hqhi, hrlo, hrhi, one_le_flog2 hp⟩

/-- Settles O30: the quotient is the high product shifted, and two floors by powers of two are one. -/
theorem fddivNoAddPath : Obligations.FddivNoAddPath := by
  intro s d n hs hm ha
  have hq := quotient_noAdd_toNat hm ha n
  refine ⟨quotient d n, hq, ?_, exec_fddiv_of_desc_some hs n⟩
  rw [hq, Nat.div_div_eq_div_mul, ← pow_add]

/-- Settles O54: the highest set bit and the bounds by powers of two are those of `Nat.log2`; the values are computed. -/
theorem flogTwoIsHighestSetBit : Obligations.FlogTwoIsHighestSetBit :=
  ⟨fun d h => ⟨getLsbD_flog2 d h, fun _ => getLsbD_of_flog2_lt d h, two_pow_flog2_le d h, lt_two_pow_flog2_succ d h,
    fun _ => eq_flog2_of_bounds h⟩, by decide, by decide, by decide, by decide, by decide⟩

/-- Settles O56: the 128-bit product is exact, so its upper half is the floor; the corner cases are computed. -/
theorem mulhiIsUpperHalf : Obligations.MulhiIsUpperHalf :=
  ⟨fun a b => ⟨mulhi_eq_extractLsb' a b, setWidth_mul_toNat a b, mulhi_toNat a b, mulhi_comm a b, mulhi_zero_right a,
    mulhi_one_right a⟩, by decide, by decide, by decide, by decide, by decide⟩

/-- Settles O57: both operands split at bit 32, and the columns added with their carries. -/
theorem partialProductsGiveMulhi : Obligations.PartialProductsGiveMulhi :=
  mulhi_toNat_eq_mulhiPartial

/-- Settles O58: the bounds in the right operand, and by symmetry in the left. -/
theorem mulhiBelowOperands : Obligations.MulhiBelowOperands := by
  intro a b
  obtain ⟨hle, heq, hpred⟩ := mulhi_right_bounds a b
  have hleft := mulhi_right_bounds b a
  rw [mulhi_comm b a] at hleft
  exact ⟨hle, heq, hpred, hleft⟩

/-- Settles O29: with `MULT` 0 the quotient is the dividend shifted, and `ADD` is not read. -/
theorem fddivBypass : Obligations.FddivBypass := by
  intro s d n hs hm
  refine ⟨quotient d n, ?_, exec_fddiv_of_desc_some hs n⟩
  rw [quotient_of_mult_zero hm, shr_toNat]

end Sys2Proof.Proofs

/-! # What `FDNEW` writes (`41_construct.md` R71, R73, R80, R84) -/

namespace Sys2Proof.Machine

/-! ## The descriptor that construction gives -/

/-- `DIVISOR` and `SHIFT` are the divisor and its `flog2` on all three paths; only `MULT` and `ADD` depend on the path. -/
theorem construct_eq_fields (d : Word) (h : d ≠ 0#64) : construct d h =
    { divisor := d, mult := (construct d h).mult, shift := flog2 d h, add := (construct d h).add } := by
  unfold construct
  split_ifs <;> rfl

theorem construct_of_ispow2 {d : Word} {h : d ≠ 0#64} (hp : ispow2 d h = true) :
    construct d h = { divisor := d, mult := 0#64, shift := flog2 d h, add := false } :=
  if_pos hp

/-! ## The powers of two (R73) -/

theorem ne_zero_of_toNat_eq_two_pow {d : Word} {k : Nat} (hk : d.toNat = 2 ^ k) : d ≠ 0#64 := by
  rintro rfl
  exact (Nat.two_pow_pos k).ne hk

theorem flog2_of_toNat_eq_two_pow {d : Word} {h : d ≠ 0#64} {k : ShiftAmount} (hk : d.toNat = 2 ^ k.toNat) :
    flog2 d h = k := by
  apply BitVec.eq_of_toNat_eq
  rw [flog2_toNat, hk, Nat.log2_two_pow]

theorem construct_of_toNat_eq_two_pow {d : Word} {h : d ≠ 0#64} {k : ShiftAmount} (hk : d.toNat = 2 ^ k.toNat) :
    construct d h = { divisor := d, mult := 0#64, shift := k, add := false } := by
  have hlog : flog2 d h = k := flog2_of_toNat_eq_two_pow hk
  rw [construct_of_ispow2 ((ispow2_iff d h).mpr (by rw [hlog, hk])), hlog]

/-! ## The next state of `FDNEW` -/

theorem exec_fdnew_zero (s : State) :
    exec (.fdnew 0#64) s = .next { s with
      desc := none
      err := true
      responses := s.responses ++ [{ status := .fault .invalidDivisor, data := 0#64 }] } :=
  (execFdnew_zero s).trans (raise_eq .invalidDivisor s)

theorem exec_fdnew_of_ne_zero {d : Word} (h : d ≠ 0#64) (s : State) :
    exec (.fdnew d) s = .next { s with
      desc := some (construct d h)
      responses := s.responses ++ [{ status := .success, data := 0#64 }] } :=
  (execFdnew_of_ne_zero h s).trans (respond_eq 0#64 _)

end Sys2Proof.Machine

namespace Sys2Proof.Proofs

open Sys2Proof.Machine

/-- Settles O17: `2^k` has `flog2` equal to `k`, so it passes the test of R56 and takes the power-of-two path. -/
theorem fdnewPowerOfTwo : Obligations.FdnewPowerOfTwo := by
  intro s k d hk
  rw [exec_fdnew_of_ne_zero (ne_zero_of_toNat_eq_two_pow hk), construct_of_toNat_eq_two_pow hk]

/-- Settles O15: the response word is computed, and the next state is that of a zero divisor. -/
theorem fdnewZeroFaults : Obligations.FdnewZeroFaults :=
  ⟨rfl, exec_fdnew_zero⟩

/-- Settles O16: the slot holds the constructed descriptor, whose `DIVISOR` and `SHIFT` are the same on every path. -/
theorem fdnewWritesDescriptor : Obligations.FdnewWritesDescriptor := by
  intro s d h
  rw [exec_fdnew_of_ne_zero h, ← construct_eq_fields d h]

/-- Settles O20: a zero divisor and any other one each fix the slot, the response and the bit for `ERR`. -/
theorem fdnewIsFunctionOfDivisor : Obligations.FdnewIsFunctionOfDivisor := by
  intro d
  by_cases h : d = 0#64
  · subst h
    refine ⟨none, { status := .fault .invalidDivisor, data := 0#64 }, true, fun s => ?_⟩
    rw [exec_fdnew_zero, Bool.or_true]
  · refine ⟨some (construct d h), { status := .success, data := 0#64 }, false, fun s => ?_⟩
    rw [exec_fdnew_of_ne_zero h, Bool.or_false]

end Sys2Proof.Proofs

/-! # Division by a descriptor (`41_construct.md` R74 to R81, `42_apply.md` R91 to R99) and the read-only commands
(`20_memory.md` R38, `42_apply.md` R95, R96) -/

namespace Sys2Proof.Arith

theorem div_succ_mul {D : Nat} (hD : 0 < D) (u : Nat) : (u / D + 1) * D = u + (D - u % D) := by
  have hdm := Nat.div_add_mod' u D
  have hr := Nat.mod_lt u hD
  rw [Nat.add_mul]
  omega

/-- The multiplier `floor(2^(64+k) / D) + 1` exceeds the exact one by an error of at most `2^k`, too little to reach the next
quotient for any 64-bit dividend (R98). -/
theorem magic_mul_div {D k N : Nat} (hD : 0 < D) (he : D - 2 ^ (64 + k) % D ≤ 2 ^ k) (hN : N < 2 ^ 64) :
    (2 ^ (64 + k) / D + 1) * N / 2 ^ (64 + k) = N / D := by
  refine mul_div_eq_div hD (div_succ_mul hD _) ?_
  calc (D - 2 ^ (64 + k) % D) * N ≤ 2 ^ k * N := Nat.mul_le_mul_right _ he
    _ < 2 ^ k * 2 ^ 64 := Nat.mul_lt_mul_of_pos_left hN (Nat.two_pow_pos k)
    _ = 2 ^ (64 + k) := by rw [Nat.mul_comm, ← pow_add]

/-- A remainder below half of the divisor carries nothing into the doubled quotient (R78). -/
theorem two_mul_div {u D : Nat} (hr : 2 * (u % D) < D) : 2 * u / D = 2 * (u / D) := by
  have hdm := Nat.div_add_mod u D
  calc 2 * u / D = (2 * (u % D) + D * (2 * (u / D))) / D := by rw [Nat.mul_left_comm]; congr 1; omega
    _ = 2 * (u / D) := by rw [Nat.add_mul_div_left _ _ (by omega), Nat.div_eq_of_lt hr, Nat.zero_add]

end Sys2Proof.Arith

namespace Sys2Proof.Machine

/-! ## The conditional adder and the add path of `FDDIV` (R65, R93, R99) -/

theorem mulhi_le_right (a b : Word) : (mulhi a b).toNat ≤ b.toNat :=
  (mulhi_right_bounds a b).1

theorem cadd_true_toNat {n q : Word} (hq : q.toNat ≤ n.toNat) : (cadd n q true).toNat = (n.toNat + q.toNat) / 2 := by
  have hn := n.isLt
  rw [cadd_true, BitVec.toNat_add, BitVec.toNat_ushiftRight, Nat.shiftRight_eq_div_pow,
    BitVec.toNat_sub_of_le (BitVec.le_def.mpr hq)]
  omega

theorem quotient_add_toNat {d : Descriptor} (hm : d.mult ≠ 0#64) (ha : d.add = true) (n : Word) :
    (quotient d n).toNat = (n.toNat + d.mult.toNat * n.toNat / 2 ^ 64) / 2 ^ (d.shift.toNat + 1) := by
  rw [quotient_of_mult_ne_zero hm, ha, shr_toNat, cadd_true_toNat (mulhi_le_right _ n), mulhi_toNat,
    Nat.div_div_eq_div_mul, pow_succ' 2 d.shift.toNat]

/-! ## Every descriptor of the table divides exactly (R98) -/

theorem ne_zero_of_toNat_pos {x : Word} (h : 0 < x.toNat) : x ≠ 0#64 := by
  rintro rfl
  exact absurd h (by decide)

theorem Descriptor.powerRow.exact {d : Descriptor} (h : d.powerRow) : d.Exact := by
  obtain ⟨hdiv, -, hm⟩ := h
  intro n
  rw [quotient_of_mult_zero hm, shr_toNat, hdiv]

theorem Descriptor.noAddRow.exact {d : Descriptor} (h : d.noAddRow) : d.Exact := by
  obtain ⟨hlo, -, he, -, ha, hM, -⟩ := h
  intro n
  have hm : d.mult ≠ 0#64 := ne_zero_of_toNat_pos (hM ▸ Nat.succ_pos _)
  rw [quotient_noAdd_toNat hm ha, Nat.div_div_eq_div_mul, ← pow_add, hM]
  exact Arith.magic_mul_div (Nat.zero_lt_of_lt hlo) (Nat.le_of_lt he) n.isLt

/-- With the missing bit of the multiplier added back, the add path is the no-add path one place further up. -/
theorem Descriptor.addRow.exact {d : Descriptor} (h : d.addRow) : d.Exact := by
  obtain ⟨hlo, hhi, -, -, ha, hM, hodd, -⟩ := h
  intro n
  have hsum : n.toNat + d.mult.toNat * n.toNat / 2 ^ 64 = (d.mult.toNat + 2 ^ 64) * n.toNat / 2 ^ 64 := by
    rw [Nat.add_mul, Nat.add_mul_div_left _ _ (Nat.two_pow_pos 64), Nat.add_comm]
  rw [show 65 + d.shift.toNat = 64 + (d.shift.toNat + 1) by omega] at hM
  have hm : d.mult ≠ 0#64 := ne_zero_of_toNat_pos (by omega)
  rw [quotient_add_toNat hm ha, hsum, Nat.div_div_eq_div_mul, ← pow_add, hM]
  exact Arith.magic_mul_div (Nat.zero_lt_of_lt hlo) ((Nat.sub_le _ _).trans hhi.le) n.isLt

theorem Descriptor.Tabled.exact {d : Descriptor} : d.Tabled → d.Exact
  | .inl h => h.exact
  | .inr (.inl h) => h.exact
  | .inr (.inr h) => h.exact

/-! ## The steps of construction (R75 to R79) -/

theorem candidate_rem_lt (d : Word) (h : d ≠ 0#64) : (candidate d h).rem.toNat < d.toNat := by
  rw [candidate_rem_toNat]
  exact Nat.mod_lt _ (toNat_pos_of_ne_zero h)

theorem errorTerm_toNat (d : Word) (h : d ≠ 0#64) :
    (errorTerm d h).toNat = d.toNat - (candidate d h).rem.toNat :=
  BitVec.toNat_sub_of_le (BitVec.le_def.mpr (candidate_rem_lt d h).le)

theorem candidateExact_iff {d : Word} {h : d ≠ 0#64} :
    candidateExact d h = true ↔ noAddCondition d.toNat (flog2 d h).toNat := by
  rw [candidateExact, ltu_iff, errorTerm_toNat, pow2_toNat, candidate_rem_toNat, noAddCondition]

/-- An inexact candidate has an error of at least `2^L`, which is more than half of `D` (R78). -/
theorem two_mul_candidate_rem_lt {d : Word} {h : d ≠ 0#64} (he : candidateExact d h = false) :
    2 * (candidate d h).rem.toNat < d.toNat := by
  have hcond : ¬ noAddCondition d.toNat (flog2 d h).toNat := by simp [← candidateExact_iff (h := h), he]
  have hhi := lt_two_pow_flog2_succ d h
  rw [noAddCondition, ← candidate_rem_toNat] at hcond
  omega

theorem twiceRem_toNat {rem d : Word} (hr : 2 * rem.toNat < d.toNat) : (twiceRem rem).toNat = 2 * rem.toNat := by
  have hd := d.isLt
  rw [twiceRem, BitVec.toNat_mul, BitVec.toNat_ofNat]
  omega

theorem incrementTest_eq_false {rem d : Word} (hr : 2 * rem.toNat < d.toNat) : incrementTest rem d = false := by
  have htwice := twiceRem_toNat hr
  rw [incrementTest, Bool.or_eq_false_iff, Bool.eq_false_iff, Bool.eq_false_iff, ne_eq, ne_eq, geu_iff, ltu_iff]
  omega

theorem doubledCandidate_toNat {c : WideQuotient} {d : Word} (hr : 2 * c.rem.toNat < d.toNat)
    (hq : c.quot.toNat < 2 ^ 64) : (doubledCandidate c d).toNat = 2 * c.quot.toNat := by
  rw [doubledCandidate, incrementTest_eq_false hr, if_neg Bool.false_ne_true, BitVec.toNat_mul, BitVec.toNat_ofNat]
  omega

theorem multiplierOf_toNat (pm : WideWord) : (multiplierOf pm).toNat = (pm.toNat + 1) % 2 ^ 64 := by
  rw [multiplierOf, trunc64_toNat, BitVec.toNat_add, BitVec.toNat_ofNat]
  omega

theorem construct_of_candidateExact {d : Word} {h : d ≠ 0#64} (hp : ispow2 d h = false)
    (he : candidateExact d h = true) : construct d h =
      { divisor := d, mult := multiplierOf (candidate d h).quot, shift := flog2 d h, add := false } := by
  simp [construct, hp, he]

theorem construct_of_not_candidateExact {d : Word} {h : d ≠ 0#64} (hp : ispow2 d h = false)
    (he : candidateExact d h = false) : construct d h =
      { divisor := d, mult := multiplierOf (doubledCandidate (candidate d h) d), shift := flog2 d h, add := true } := by
  simp [construct, hp, he]

/-! ## Construction gives a descriptor of the table (R81), so it divides exactly (R98) -/

theorem construct_powerRow {d : Word} {h : d ≠ 0#64} (hp : ispow2 d h = true) : (construct d h).powerRow := by
  rw [construct_of_ispow2 hp]
  exact ⟨(ispow2_iff d h).mp hp, rfl, rfl⟩

theorem construct_noAddRow {d : Word} {h : d ≠ 0#64} (hp : ispow2 d h = false) (he : candidateExact d h = true) :
    (construct d h).noAddRow := by
  obtain ⟨hqlo, hqhi⟩ := candidate_quot_bounds hp
  have hm : (multiplierOf (candidate d h).quot).toNat = (candidate d h).quot.toNat + 1 := by
    rw [multiplierOf_toNat]
    omega
  rw [construct_of_candidateExact hp he]
  exact ⟨two_pow_flog2_lt hp, lt_two_pow_flog2_succ d h, candidateExact_iff.mp he, one_le_flog2 hp, rfl,
    hm.trans (by rw [candidate_quot_toNat]), hm.symm ▸ Nat.succ_le_succ hqlo⟩

theorem construct_addRow {d : Word} {h : d ≠ 0#64} (hp : ispow2 d h = false) (he : candidateExact d h = false) :
    (construct d h).addRow := by
  obtain ⟨hqlo, hqhi⟩ := candidate_quot_bounds hp
  have hrem := two_mul_candidate_rem_lt he
  have hm : (multiplierOf (doubledCandidate (candidate d h) d)).toNat + 2 ^ 64 =
      2 * (candidate d h).quot.toNat + 1 := by
    rw [multiplierOf_toNat, doubledCandidate_toNat hrem (by omega)]
    omega
  have hquot : 2 ^ (65 + (flog2 d h).toNat) / d.toNat = 2 * (candidate d h).quot.toNat := by
    rw [candidate_rem_toNat] at hrem
    rw [candidate_quot_toNat, ← Arith.two_mul_div hrem, ← pow_succ', Nat.add_right_comm]
  rw [construct_of_not_candidateExact hp he]
  refine ⟨two_pow_flog2_lt hp, lt_two_pow_flog2_succ d h, ?_, one_le_flog2 hp, rfl, ?_, ?_, ?_⟩
  · exact fun hc => Bool.false_ne_true (he.symm.trans (candidateExact_iff.mpr hc))
  · exact hm.trans (by rw [hquot])
  · dsimp only
    omega
  · dsimp only
    omega

theorem construct_tabled (d : Word) (h : d ≠ 0#64) : (construct d h).Tabled := by
  cases hp : ispow2 d h with
  | true => exact .inl (construct_powerRow hp)
  | false =>
    cases he : candidateExact d h with
    | true => exact .inr (.inl (construct_noAddRow hp he))
    | false => exact .inr (.inr (construct_addRow hp he))

theorem construct_divisor (d : Word) (h : d ≠ 0#64) : (construct d h).divisor = d := by
  rw [construct_eq_fields]

theorem quotient_construct_toNat (d : Word) (h : d ≠ 0#64) (n : Word) :
    (quotient (construct d h) n).toNat = n.toNat / d.toNat := by
  rw [(construct_tabled d h).exact n, construct_divisor]

/-! ## What a read-only command answers (`20_memory.md` R38, `42_apply.md` R95, R96) -/

theorem quotient_congr {d e : Descriptor} (hm : d.mult = e.mult) (hs : d.shift = e.shift) (ha : d.add = e.add)
    (n : Word) : quotient d n = quotient e n := by
  rw [quotient, quotient, hm, hs, ha]

theorem statusData_congr {s t : State} (herr : s.err = t.err) (hdesc : s.desc = t.desc) :
    statusData s = statusData t := by
  rw [statusData, statusData, State.valid, State.valid, herr, hdesc]

theorem exec_fddiv_of_desc_none {s : State} (hs : s.desc = none) (n : Word) :
    exec (.fddiv n) s = .next { s with
      err := true
      responses := s.responses ++ [{ status := .fault .noDescriptor, data := 0#64 }] } :=
  (exec_of_desc_none hs rfl (by simp)).trans (raise_eq _ s)

/-- A read-only command that finds the descriptor `d` answers by `d` and `ERR` alone and changes nothing. -/
theorem exec_readOnly_of_desc_some {i : Instr} (hi : readOnly i = true) (d : Descriptor) (e : Bool) :
    ∃ r, ∀ s : State, s.desc = some d → s.err = e →
      exec i s = .next { s with responses := s.responses ++ [r] } := by
  cases i with
  | fdnew _ => cases hi
  | fdrdStatus =>
    refine ⟨{ status := .success, data := statusData ⟨e, some d, [], []⟩ }, fun s hs he => ?_⟩
    rw [← statusData_congr (s := s) he hs]
    exact respond_eq _ s
  | _ => exact ⟨_, fun s hs _ => (withDescriptor_some hs _).trans (respond_eq _ s)⟩

/-- A read-only command that finds the slot empty leaves it empty, and faults unless it is `FDRD.STATUS`. -/
theorem exec_readOnly_of_desc_none {i : Instr} (hi : readOnly i = true) {s : State} (hs : s.desc = none) :
    ∃ t, exec i s = .next t ∧ t.desc = none ∧ t.err = (s.err || decide (i ≠ .fdrdStatus)) := by
  by_cases h : i = .fdrdStatus
  · subst h
    exact ⟨_, respond_eq _ s, hs, by simp⟩
  · exact ⟨_, (exec_of_desc_none hs hi h).trans (raise_eq _ s), by simp [hs], by simp [h]⟩

end Sys2Proof.Machine

namespace Sys2Proof.Proofs

open Sys2Proof.Machine

/-- Settles O33: construction gives a descriptor of the table, and each of the table's descriptors divides exactly. -/
theorem fddivExactAfterFdnew : Obligations.FddivExactAfterFdnew :=
  fun s d n h => ⟨_, _, exec_fdnew_of_ne_zero h s, quotient_construct_toNat d h n, exec_fddiv_of_desc_some rfl n⟩

/-- Settles O42: with a descriptor each command answers by slot and `ERR`, which neither changes; with none, `ERR` becomes 1
as soon as one of the two faults. -/
theorem readOnlyCommandsCommute : Obligations.ReadOnlyCommandsCommute := by
  refine ⟨fun s d a b hs ha hb => ?_, fun s a b hs ha hb => ?_⟩
  · obtain ⟨ra, hra⟩ := exec_readOnly_of_desc_some ha d s.err
    obtain ⟨rb, hrb⟩ := exec_readOnly_of_desc_some hb d s.err
    refine ⟨ra, rb, hra s hs rfl, ?_, hrb s hs rfl, ?_⟩
    · simpa using hrb { s with responses := s.responses ++ [ra] } hs rfl
    · simpa using hra { s with responses := s.responses ++ [rb] } hs rfl
  · obtain ⟨sa, hsa, hda, hea⟩ := exec_readOnly_of_desc_none ha hs
    obtain ⟨sab, hsab, hdab, heab⟩ := exec_readOnly_of_desc_none hb hda
    obtain ⟨sb, hsb, hdb, heb⟩ := exec_readOnly_of_desc_none hb hs
    obtain ⟨sba, hsba, hdba, heba⟩ := exec_readOnly_of_desc_none ha hdb
    refine ⟨sa, sab, sb, sba, hsa, hsab, hsb, hsba, hdab, hdba, ?_, fun hne => ?_⟩
    · rw [heab, heba, hea, heb, Bool.or_right_comm]
    · rw [heab, hea]
      simpa [or_assoc] using Or.inr hne

/-- Settles O28: the response word is computed, and the next state is that of `NoDescriptor`. -/
theorem fddivWithoutDescriptorFaults : Obligations.FddivWithoutDescriptorFaults :=
  ⟨rfl, fun _ n hs => exec_fddiv_of_desc_none hs n⟩

/-- Settles O32: the quotient of the descriptor with `DIVISOR` 0 is that of every descriptor with the same other fields. -/
theorem fddivIsPure : Obligations.FddivIsPure := by
  intro m l a n
  refine ⟨quotient ⟨0#64, m, l, a⟩ n, fun s d hs => ?_⟩
  have hq : quotient ⟨0#64, m, l, a⟩ n = quotient ⟨d, m, l, a⟩ n := quotient_congr rfl rfl rfl n
  rw [exec_fddiv_of_desc_some hs, hq]

end Sys2Proof.Proofs

/-! # Read-back and the slot (`43_readback.md` R105 to R111; `20_memory.md` R32, `10_state.md` R24) -/

namespace Sys2Proof.Machine

/-! ## The next state of a read-only command -/

theorem fault_bne_success (f : Fault) : (Status.fault f != .success) = true := rfl

/-- With an empty slot a read-only command other than `FDRD.STATUS` sets `ERR` and answers `NoDescriptor`. -/
theorem exec_readOnly_noDescriptor {i : Instr} (hi : readOnly i = true) (hne : i ≠ .fdrdStatus) {s : State}
    (hs : s.desc = none) : exec i s = .next { s with
      err := true
      responses := s.responses ++ [{ status := .fault .noDescriptor, data := 0#64 }] } :=
  (exec_of_desc_none hs hi hne).trans (raise_eq _ s)

/-- Where a read-only command does not fault, its data does not depend on the responses sent before. -/
theorem exec_readOnly_eq_respond {i : Instr} (hi : readOnly i = true) {s : State}
    (hs : i = .fdrdStatus ∨ s.desc ≠ none) :
    ∃ data, ∀ rs, exec i { s with responses := rs } = respond data { s with responses := rs } := by
  cases i with
  | fdnew _ => cases hi
  | fdrdStatus => exact ⟨statusData s, fun _ => rfl⟩
  | _ =>
    obtain ⟨d, hd⟩ := Option.ne_none_iff_exists'.mp (hs.resolve_left (by simp))
    exact ⟨_, fun rs => withDescriptor_some (s := { s with responses := rs }) hd _⟩

/-- A command that answers a function of the descriptor changes nothing but the responses when there is one. -/
theorem withDescriptor_respond_of_desc_some {s : State} {d : Descriptor} (hs : s.desc = some d)
    (g : Descriptor → Word) : withDescriptor s (fun d => respond (g d) s) =
      .next { s with responses := s.responses ++ [{ status := .success, data := g d }] } :=
  (withDescriptor_some hs _).trans (respond_eq _ s)

theorem exec_fdrdDivisor_of_desc_some {s : State} {d : Descriptor} (hs : s.desc = some d) :
    exec .fdrdDivisor s = .next { s with responses := s.responses ++ [{ status := .success, data := d.divisor }] } :=
  withDescriptor_respond_of_desc_some hs Descriptor.divisor

theorem exec_fdrdMult_of_desc_some {s : State} {d : Descriptor} (hs : s.desc = some d) :
    exec .fdrdMult s = .next { s with responses := s.responses ++ [{ status := .success, data := d.mult }] } :=
  withDescriptor_respond_of_desc_some hs Descriptor.mult

theorem exec_fdrdShift_of_desc_some {s : State} {d : Descriptor} (hs : s.desc = some d) :
    exec .fdrdShift s =
      .next { s with responses := s.responses ++ [{ status := .success, data := zextShift d.shift }] } :=
  withDescriptor_respond_of_desc_some hs (zextShift ·.shift)

theorem exec_fdrdAdd_of_desc_some {s : State} {d : Descriptor} (hs : s.desc = some d) :
    exec .fdrdAdd s = .next { s with responses := s.responses ++ [{ status := .success, data := zextAdd d.add }] } :=
  withDescriptor_respond_of_desc_some hs (zextAdd ·.add)

/-! ## The fields that are read back -/

theorem construct_shift (d : Word) (h : d ≠ 0#64) : (construct d h).shift = flog2 d h := by
  rw [construct_eq_fields]

/-- `MULT` is 0 for a power of two; on the no-add path it is at least `2^63 + 1` and on the add path it is odd
(`41_construct.md` R82). -/
theorem construct_mult_eq_zero_iff (d : Word) (h : d ≠ 0#64) : (construct d h).mult = 0#64 ↔ ispow2 d h = true := by
  refine ⟨fun hm => ?_, fun hp => by rw [construct_of_ispow2 hp]⟩
  by_contra hp
  rw [Bool.not_eq_true] at hp
  have hm0 : (construct d h).mult.toNat = 0 := by rw [hm]; rfl
  cases he : candidateExact d h with
  | true =>
    obtain ⟨-, -, -, -, -, -, hlo⟩ := construct_noAddRow hp he
    omega
  | false =>
    obtain ⟨-, -, -, -, -, -, hodd, -⟩ := construct_addRow hp he
    omega

theorem zextAdd_eq_ite (a : Bool) : zextAdd a = if a then 1#64 else 0#64 := by
  cases a <;> rfl

/-! ## What becomes of the slot -/

/-- A command keeps the slot, or it is an `FDNEW` that writes or empties it (`43_readback.md` R111). -/
theorem exec_desc {i : Instr} {s t : State} (ht : exec i s = .next t) :
    t.desc = s.desc ∨ (∃ (d : Word) (h : d ≠ 0#64), i = .fdnew d ∧ t.desc = some (construct d h)) ∨
      (i = .fdnew 0#64 ∧ t.desc = none) := by
  obtain ⟨data, -, -, he⟩ | ⟨d, h, hi, he⟩ | ⟨hi, he⟩ | ⟨-, -, -, he⟩ := exec_cases i s <;>
    cases he.symm.trans ht
  · exact .inl rfl
  · exact .inr (.inl ⟨d, h, hi, rfl⟩)
  · exact .inr (.inr ⟨hi, rfl⟩)
  · exact .inl rfl

end Sys2Proof.Machine

namespace Sys2Proof.Proofs

open Sys2Proof.Machine

/-- Settles O41: with an empty slot every command but `FDRD.STATUS` faults; otherwise the command succeeds,
and its data does not depend on the response it has just sent. -/
theorem readOnlyCommandsKeepState : Obligations.ReadOnlyCommandsKeepState := by
  intro i s hi
  by_cases hs : i = .fdrdStatus ∨ s.desc ≠ none
  · obtain ⟨data, hdata⟩ := exec_readOnly_eq_respond hi hs
    refine ⟨{ status := .success, data := data }, ?_, fun _ => ?_⟩
    · rw [bne_self_eq_false, Bool.or_false]
      exact (hdata s.responses).trans (respond_eq data s)
    · rw [hdata, respond_eq, List.append_assoc, List.singleton_append]
  · obtain ⟨hne, hnone⟩ := not_or.mp hs
    refine ⟨{ status := .fault .noDescriptor, data := 0#64 }, ?_, nofun⟩
    rw [fault_bne_success, Bool.or_true]
    exact exec_readOnly_noDescriptor hi hne (not_not.mp hnone)

/-- Settles O44: with no input and with an illegal word the slot stays, reset empties it, and of the commands only
`FDNEW` changes it. -/
theorem onlyFdnewWritesDescriptor : Obligations.OnlyFdnewWritesDescriptor := by
  intro s t ht
  obtain ⟨-, hstep⟩ | ⟨rest, hp, hstep⟩ | ⟨w, rest, i, hp, hd, hstep⟩ | ⟨w, rest, -, -, hstep⟩ := step_cases s
  · cases hstep.symm.trans ht
    exact .inl rfl
  · cases hstep.symm.trans ht
    exact .inr (.inr ⟨rfl, rest, .inr hp⟩)
  · rw [← decode_eq_legal_iff.mp hd] at hp
    obtain hkeep | ⟨d, h, rfl, hnew⟩ | ⟨rfl, hnone⟩ := exec_desc (hstep.symm.trans ht)
    · exact .inl hkeep
    · exact .inr (.inl ⟨d, h, rest, hp, hnew⟩)
    · exact .inr (.inr ⟨hnone, rest, .inl hp⟩)
  · cases hstep.symm.trans ht
    exact .inl rfl

/-- Settles O36: construction keeps its argument in `DIVISOR`. -/
theorem readBackDivisor : Obligations.ReadBackDivisor := by
  refine ⟨rfl, fun s => exec_readOnly_noDescriptor rfl (by simp), fun s d => exec_fdrdDivisor_of_desc_some,
    fun s d h => ⟨_, exec_fdnew_of_ne_zero h s, ?_⟩⟩
  rw [exec_fdrdDivisor_of_desc_some rfl, construct_divisor]

/-- Settles O37: of the constructed multipliers only those of the powers of two are 0. -/
theorem readBackMult : Obligations.ReadBackMult :=
  ⟨rfl, fun _ => exec_readOnly_noDescriptor rfl (by simp), fun _ _ => exec_fdrdMult_of_desc_some,
    fun s d h => ⟨_, _, exec_fdnew_of_ne_zero h s, exec_fdrdMult_of_desc_some rfl, construct_mult_eq_zero_iff d h⟩⟩

/-- Settles O38: the extension with zeros keeps the value, and construction puts `flog2` of its argument in `SHIFT`. -/
theorem readBackShift : Obligations.ReadBackShift := by
  refine ⟨rfl, fun s => exec_readOnly_noDescriptor rfl (by simp),
    fun s d hs => ⟨_, zextShift_toNat d.shift, exec_fdrdShift_of_desc_some hs⟩,
    fun s d h => ⟨_, _, exec_fdnew_of_ne_zero h s, ?_, exec_fdrdShift_of_desc_some rfl⟩⟩
  rw [zextShift_toNat, construct_shift]

/-- Settles O39: the bit `ADD` with zeros above it is 1 or 0. -/
theorem readBackAdd : Obligations.ReadBackAdd := by
  refine ⟨rfl, fun s => exec_readOnly_noDescriptor rfl (by simp), fun s d hs => ?_⟩
  rw [exec_fdrdAdd_of_desc_some hs, zextAdd_eq_ite]

/-- Settles O40: the status word has the value named, and `ERR` is inert for every other command. -/
theorem readBackStatus : Obligations.ReadBackStatus := by
  refine ⟨rfl, fun s => ⟨statusData s, statusData_toNat s, respond_eq _ s⟩, fun i s b hi => ?_⟩
  obtain ⟨t, c, ht, hb⟩ := errInert_exec hi s b
  exact ⟨t, { t with err := c }, ht, hb, rfl, rfl⟩

end Sys2Proof.Proofs

/-! # Faults: their causes and their entry (`60_exceptions.md` R112 to R119) -/

namespace Sys2Proof.Machine

/-- The cause of each fault when `w` is taken in the state `s`, as `60_exceptions.md` R113 to R115 give it. -/
def Fault.Cause (w : CommandWord) (s : State) : Fault → Prop
  | .illegalCommand => decode w = .illegal
  | .invalidDivisor => decode w = .legal (.fdnew 0#64)
  | .noDescriptor => s.desc = none ∧ ∃ i, decode w = .legal i ∧ readOnly i = true ∧ i ≠ .fdrdStatus

/-- The commands that read the descriptor are the four field read-backs and `FDDIV`. -/
theorem readOnly_and_ne_fdrdStatus_iff {i : Instr} : readOnly i = true ∧ i ≠ .fdrdStatus ↔
    i = .fdrdDivisor ∨ i = .fdrdMult ∨ i = .fdrdShift ∨ i = .fdrdAdd ∨ ∃ n, i = .fddiv n := by
  cases i <;> simp [readOnly]

theorem Fault.cause_noDescriptor_iff {w : CommandWord} {s : State} : Fault.noDescriptor.Cause w s ↔
    s.desc = none ∧ (decode w = .legal .fdrdDivisor ∨ decode w = .legal .fdrdMult ∨ decode w = .legal .fdrdShift ∨
      decode w = .legal .fdrdAdd ∨ ∃ n, decode w = .legal (.fddiv n)) := by
  simp only [Fault.Cause, readOnly_and_ne_fdrdStatus_iff]
  cases decode w <;> simp

theorem Fault.cause_iff_of_illegal {w : CommandWord} (hd : decode w = .illegal) {s : State} {f : Fault} :
    f.Cause w s ↔ f = .illegalCommand := by
  cases f <;> simp [Fault.Cause, hd]

theorem Fault.cause_iff_of_legal {w : CommandWord} {i : Instr} (hd : decode w = .legal i) {s : State} {f : Fault} :
    f.Cause w s ↔ (f = .invalidDivisor ∧ i = .fdnew 0#64) ∨
      (f = .noDescriptor ∧ s.desc = none ∧ readOnly i = true ∧ i ≠ .fdrdStatus) := by
  cases f <;> simp [Fault.Cause, hd]

/-- No two causes hold together: an illegal word is no command, and `FDNEW` does not read the descriptor. -/
theorem Fault.Cause.unique {w : CommandWord} {s : State} {f g : Fault} (hf : f.Cause w s) (hg : g.Cause w s) :
    f = g := by
  cases hd : decode w with
  | illegal => rw [(cause_iff_of_illegal hd).mp hf, (cause_iff_of_illegal hd).mp hg]
  | legal i =>
    obtain ⟨rfl, hi⟩ | ⟨rfl, -, hi, -⟩ := (cause_iff_of_legal hd).mp hf <;>
      obtain ⟨rfl, hj⟩ | ⟨rfl, -, hj, -⟩ := (cause_iff_of_legal hd).mp hg
    · rfl
    · simp [hi, readOnly] at hj
    · simp [hj, readOnly] at hi
    · rfl

/-- A command word for which no fault has its cause succeeds; one that has a cause raises that fault, and does so before
anything but the input has changed. -/
theorem step_command_cases {s : State} {w : CommandWord} {rest : List Input} (hp : s.pending = .command w :: rest) :
    (∃ data u, (∀ f : Fault, ¬ f.Cause w s) ∧ step s = respond data u ∧ u.responses = s.responses) ∨
    (∃ f : Fault, f.Cause w s ∧ step s = raise f { s with pending := rest }) := by
  cases hd : decode w with
  | illegal => exact .inr ⟨.illegalCommand, hd, step_illegal hp hd⟩
  | legal i =>
    rw [step_legal hp hd]
    obtain ⟨data, hro, hslot, he⟩ | ⟨d, h, rfl, he⟩ | ⟨rfl, he⟩ | ⟨hro, hne, hnone, he⟩ :=
      exec_cases i { s with pending := rest }
    · refine .inl ⟨data, _, fun f hf => ?_, he, rfl⟩
      obtain ⟨-, rfl⟩ | ⟨-, hnone, -, hne⟩ := (Fault.cause_iff_of_legal hd).mp hf
      · cases hro
      · simp [hne, hnone] at hslot
    · refine .inl ⟨0#64, _, fun f hf => ?_, he, rfl⟩
      simp [Fault.cause_iff_of_legal hd, h, readOnly] at hf
    · exact .inr ⟨.invalidDivisor, hd, he⟩
    · exact .inr ⟨.noDescriptor, ⟨hnone, i, hd, hro, hne⟩, he⟩

/-- Every command word is answered once; the answer is the fault whose cause holds, and a fault has data 0. -/
theorem step_command_faults_iff {s : State} {w : CommandWord} {rest : List Input}
    (hp : s.pending = .command w :: rest) :
    ∃ t r, step s = .next t ∧ t.responses = s.responses ++ [r] ∧
      (∀ f : Fault, r.status = .fault f ↔ f.Cause w s) ∧ (r.status ≠ .success → r.data = 0#64) := by
  obtain ⟨data, u, hno, hstep, hu⟩ | ⟨f, hf, hstep⟩ := step_command_cases hp
  · exact ⟨_, { status := .success, data := data }, hstep.trans (respond_eq data u), by rw [hu],
      fun f => iff_of_false nofun (hno f), fun h => absurd rfl h⟩
  · refine ⟨_, _, hstep.trans (raise_eq f _), rfl, fun g => ⟨fun h => ?_, fun hg => ?_⟩, fun _ => rfl⟩
    · cases h
      exact hf
    · rw [hf.unique hg]

end Sys2Proof.Machine

namespace Sys2Proof.Proofs

open Sys2Proof.Machine

/-- Settles O46: a word's answer is the fault whose cause holds, and the causes are those the statement lists. -/
theorem faultsRaisedExactlyByTheirCause : Obligations.FaultsRaisedExactlyByTheirCause := by
  refine ⟨fun s w rest hp => ?_, rfl, rfl, rfl, rfl⟩
  obtain ⟨t, r, hstep, hresp, hfault, hdata⟩ := step_command_faults_iff hp
  exact ⟨t, r, hstep, hresp, hfault .illegalCommand, hfault .invalidDivisor,
    (hfault .noDescriptor).trans Fault.cause_noDescriptor_iff, hdata⟩

/-- Settles O47: a step whose response is a fault has raised it, and `raise` says what that does. -/
theorem faultEntryEffect : Obligations.FaultEntryEffect := by
  intro s t w rest f data hp ht hresp
  obtain ⟨data', u, -, hstep, hu⟩ | ⟨g, -, hstep⟩ := step_command_cases hp
  · cases (hstep.trans (respond_eq data' u)).symm.trans ht
    simp [hu] at hresp
  · cases (hstep.trans (raise_eq g _)).symm.trans ht
    obtain ⟨rfl, -⟩ : g = f ∧ 0#64 = data := by simpa using hresp
    rfl

end Sys2Proof.Proofs

/-! # `FDNEW` and the command right after it (`70_reset_and_hazards.md` R135, R136) -/

namespace Sys2Proof.Machine

/-- The step that takes the word of a command runs that command: the decoder gives back what was encoded (R47). -/
theorem step_encode {s : State} {i : Instr} {rest : List Input} (hp : s.pending = .command (encode i) :: rest) :
    step s = exec i { s with pending := rest } :=
  step_legal hp (decode_encode i)

/-- Two steps that answer a next state each, one after the other. -/
theorem run_two {s t u : State} (ht : step s = .next t) (hu : step t = .next u) :
    Host.Core.run Sys2Proof.core 2 s = .next u :=
  (run_succ core 1 s t ht).trans (run_succ core 0 t u hu)

end Sys2Proof.Machine

namespace Sys2Proof.Proofs

open Sys2Proof.Machine

/-- Settles O35: the step of `FDNEW` leaves the new descriptor in the slot before the step of `FDDIV` begins, and that
descriptor divides exactly. -/
theorem fddivRightAfterFdnew : Obligations.FddivRightAfterFdnew := by
  intro s d n rest h hp
  refine ⟨quotient (construct d h) n, quotient_construct_toNat d h n, ?_⟩
  have hnew := (step_encode hp).trans (exec_fdnew_of_ne_zero h _)
  rw [run_two hnew (Eq.trans (step_encode rfl) (exec_fddiv_of_desc_some rfl n)), List.append_assoc,
    List.singleton_append]

end Sys2Proof.Proofs

/-! # The response word and the words of the assembler's lines (`30_encoding.md` R42, R49; log entry 5) -/

namespace Sys2Proof.Machine

/-- The four codes are pairwise different (`60_exceptions.md` R112). -/
theorem Status.code_injective : Function.Injective Status.code := by
  intro a b hab
  rcases a with _ | _ | _ | _ <;> rcases b with _ | _ | _ | _ <;> simp [Status.code] at hab ⊢

theorem Response.word_injective : Function.Injective Response.word := by
  rintro ⟨status, data⟩ ⟨status', data'⟩ hword
  obtain ⟨hcode, hdata⟩ := append_inj_fields.mp hword
  exact congrArg₂ Response.mk (Status.code_injective hcode) hdata

theorem readBackOf_isSome (k : Nat) : (readBackOf k).isSome = decide (k ≤ 4) := by
  obtain hk | hk := Nat.lt_or_ge k 5
  · interval_cases k <;> rfl
  · rw [readBackOf_eq_none hk, decide_eq_false (by omega), Option.isSome_none]

/-- The lines that have a command word are the well-formed ones. -/
theorem AsmLine.commandWord_isSome (l : AsmLine) : l.commandWord.isSome = l.wf := by
  cases l with
  | fdnew e => exact Option.isSome_map
  | fddiv e => exact Option.isSome_map
  | fdrd k => exact Option.isSome_map.trans (readBackOf_isSome k)
  | word n =>
    simp only [commandWord, wf]
    split_ifs with hn
    · exact (decide_eq_true hn).symm
    · exact (decide_eq_false hn).symm
  | _ => rfl

/-- Only `.word` can spell a word that is no command's. -/
theorem AsmLine.exists_encode_of_commandWord {l : AsmLine} {w : CommandWord} (hw : l.commandWord = some w)
    (hl : ∀ n, l ≠ .word n) : ∃ i, encode i = w := by
  cases l with
  | fdnew e => obtain ⟨d, -, hd⟩ := Option.map_eq_some_iff.mp hw; exact ⟨_, hd⟩
  | fddiv e => obtain ⟨n, -, hn⟩ := Option.map_eq_some_iff.mp hw; exact ⟨_, hn⟩
  | fdrd k => obtain ⟨i, -, hi⟩ := Option.map_eq_some_iff.mp hw; exact ⟨i, hi⟩
  | word n => exact absurd rfl (hl n)
  | _ => exact ⟨_, Option.some.inj hw⟩

theorem NumExpr.operand_of_value {e : NumExpr} {n : Nat} (hv : e.value = some n) (hn : n < 2 ^ 64) :
    e.operand = some (BitVec.ofNat 64 n) := by
  simp only [operand, hv, if_pos hn]

theorem decode_tableWord_of_decodeTableWord {w : Nat} {i : Instr} (h : decodeTableWord 72 w = some i) :
    decode (tableWord 72 w) = .legal i := by
  rw [decodeTableWord, if_pos (by decide)] at h
  cases hd : decode (tableWord 72 w) with
  | legal j => rw [hd] at h; exact congrArg Command.legal (Option.some.inj h)
  | illegal => rw [hd] at h; cases h

end Sys2Proof.Machine

namespace Sys2Proof.Proofs

open Sys2Proof.Machine

/-- Settles O5: the response word has the two fields of a command word, so its parts are read off and determine it. -/
theorem responseWordHoldsStatusAndData : Obligations.ResponseWordHoldsStatusAndData :=
  ⟨fun _ => ⟨Laws.opField_append _ _, Laws.argField_append _ _⟩, fun _ _ hw => Response.word_injective hw⟩

/-- Settles O7: a line's word is there when the line is well formed, and is an encoding, which decodes to its
command. -/
theorem assemblerLineWords : Obligations.AssemblerLineWords := by
  refine ⟨fun l => ?_, fun l w hw hl => ?_, fun e n hv hn => ?_, fun e n hv hn => ?_⟩
  · rw [← l.commandWord_isSome, Option.isSome_iff_exists]
  · obtain ⟨i, rfl⟩ := AsmLine.exists_encode_of_commandWord hw hl
    exact ⟨i, decode_encode i⟩
  · exact ⟨_, _, congrArg (Option.map _) (NumExpr.operand_of_value hv hn), decode_encode _, Nat.mod_eq_of_lt hn⟩
  · exact ⟨_, _, congrArg (Option.map _) (NumExpr.operand_of_value hv hn), decode_encode _, Nat.mod_eq_of_lt hn⟩

end Sys2Proof.Proofs

/-! # The step and streams of commands (`20_memory.md` R34, R37; `60_exceptions.md` R121;
`70_reset_and_hazards.md` R130) -/

namespace Sys2Proof.Machine

theorem exec_readOnly_ignores_pending {i : Instr} (hi : readOnly i = true) (s : State) :
    ∃ t : State, ∀ rest, exec i { s with pending := rest } = .next { t with pending := rest } := by
  obtain hd | ⟨d, hd⟩ := s.desc.eq_none_or_eq_some
  · by_cases hst : i = .fdrdStatus
    · subst hst
      exact ⟨deliver { status := .success, data := statusData s } s, fun _ => rfl⟩
    · exact ⟨deliver { status := .fault .noDescriptor, data := 0#64 } (recordFault s),
        fun rest => exec_readOnly_noDescriptor (s := { s with pending := rest }) hi hst hd⟩
  · obtain ⟨r, hr⟩ := exec_readOnly_of_desc_some hi d s.err
    exact ⟨deliver r s, fun rest => hr { s with pending := rest } hd rfl⟩

/-- No command looks at what is still to come. -/
theorem exec_ignores_pending (i : Instr) (s : State) :
    ∃ t : State, ∀ rest, exec i { s with pending := rest } = .next { t with pending := rest } := by
  cases i with
  | fdnew d =>
    by_cases h : d = 0#64
    · subst h
      exact ⟨deliver { status := .fault .invalidDivisor, data := 0#64 } (recordFault (clearDescriptor s)),
        fun _ => exec_fdnew_zero _⟩
    · exact ⟨deliver { status := .success, data := 0#64 } (writeDescriptor (construct d h) s),
        fun _ => exec_fdnew_of_ne_zero h _⟩
  | _ => exact exec_readOnly_ignores_pending rfl s

/-- After `k` steps exactly the first `k` words of a stream are taken and exactly their responses are given. -/
theorem run_commands_after (ws : List CommandWord) (s : State) (rest : List Input)
    (hp : s.pending = ws.map .command ++ rest) :
    ∃ rs : List Response, rs.length = ws.length ∧ ∀ k ≤ ws.length, ∃ u,
      Host.Core.run Sys2Proof.core k s = .next u ∧ u.pending = (ws.drop k).map .command ++ rest ∧
        u.responses = s.responses ++ rs.take k := by
  induction ws generalizing s with
  | nil =>
    refine ⟨[], rfl, fun k hk => ?_⟩
    obtain rfl : k = 0 := Nat.le_zero.mp hk
    exact ⟨s, rfl, hp, (List.append_nil _).symm⟩
  | cons w ws ih =>
    obtain ⟨t, r, ht, ha⟩ := step_command_answers hp
    obtain ⟨rs, hlen, hpre⟩ := ih t ha.pending_eq
    refine ⟨r :: rs, congrArg (· + 1) hlen, fun k hk => ?_⟩
    cases k with
    | zero => exact ⟨s, rfl, hp, (List.append_nil _).symm⟩
    | succ k =>
      obtain ⟨u, hu, hup, hur⟩ := hpre k (Nat.le_of_succ_le_succ hk)
      refine ⟨u, (run_succ core k s t ht).trans hu, hup, ?_⟩
      rw [hur, ha.responses_eq, List.append_assoc, List.singleton_append, List.take_succ_cons]

/-- A stream of commands that each answer by the slot and `ERR` and change neither is answered command by command. -/
theorem run_readOnly_stream {d : Descriptor} {e : Bool} {answer : Instr → Response} {rest : List Input}
    (hans : ∀ i, readOnly i = true → ∀ s : State, s.desc = some d → s.err = e →
      exec i s = .next { s with responses := s.responses ++ [answer i] })
    (is : List Instr) (s : State) (hs : s.desc = some d) (he : s.err = e) (hro : ∀ i ∈ is, readOnly i = true)
    (hp : s.pending = is.map (fun i => .command (encode i)) ++ rest) :
    Host.Core.run Sys2Proof.core is.length s =
      .next { s with pending := rest, responses := s.responses ++ is.map answer } := by
  induction is generalizing s with
  | nil =>
    obtain rfl : s.pending = rest := hp
    rw [List.map_nil, List.append_nil]
    rfl
  | cons i is ih =>
    obtain ⟨hi, his⟩ := List.forall_mem_cons.mp hro
    have hstep := (step_encode hp).trans (hans i hi _ hs he)
    have hrun := ih { s with pending := _, responses := s.responses ++ [answer i] } hs he his rfl
    rw [List.append_assoc, List.singleton_append] at hrun
    exact (run_succ core is.length s _ hstep).trans hrun

end Sys2Proof.Machine

namespace Sys2Proof.Proofs

open Sys2Proof.Machine

/-- Settles O12: neither reset nor a fault nor a command looks at the inputs that are still to come. -/
theorem laterInputsDoNotMatter : Obligations.LaterInputsDoNotMatter := by
  rintro s (w | _)
  · cases hd : decode w with
    | legal i =>
      obtain ⟨t, ht⟩ := exec_ignores_pending i s
      exact ⟨t, fun rest => (step_legal rfl hd).trans (ht rest)⟩
    | illegal =>
      exact ⟨deliver { status := .fault .illegalCommand, data := 0#64 } (recordFault s),
        fun rest => step_illegal rfl hd⟩
  · exact ⟨State.reset, fun rest => step_reset rfl⟩

/-- Settles O13: one list of responses serves the run after every number of steps, the last one included. -/
theorem commandStreamAnsweredInOrder : Obligations.CommandStreamAnsweredInOrder := by
  intro ws s rest hp
  obtain ⟨rs, hlen, hpre⟩ := run_commands_after ws s rest hp
  obtain ⟨t, ht, htp, htr⟩ := hpre ws.length le_rfl
  rw [List.drop_length] at htp
  rw [← hlen, List.take_length] at htr
  exact ⟨t, rs, ht, htp, htr, hlen, fun k hk => hpre (k + 1) hk⟩

/-- Settles O43: each read-only command has one answer by slot and `ERR`, and none of them changes either. -/
theorem readOnlyStreamAnswers : Obligations.ReadOnlyStreamAnswers := by
  intro d e
  have : Nonempty Response := ⟨{ status := .success, data := 0#64 }⟩
  choose! answer hans using fun i (hi : readOnly i = true) => exec_readOnly_of_desc_some hi d e
  exact ⟨answer, fun is s rest hs he hro hp => run_readOnly_stream hans is s hs he hro hp⟩

/-- Settles O48: fault entry leaves an ordinary state with `ERR` 1, in which the `FDNEW` is taken like any other. -/
theorem engineGoesOnAfterFault : Obligations.EngineGoesOnAfterFault := by
  intro s t w rest f d h hp ht hresp
  obtain rfl := faultEntryEffect s t w _ f 0#64 hp ht hresp
  exact (step_encode rfl).trans (exec_fdnew_of_ne_zero h _)

/-- Settles O8: the step takes the word and runs its command; a table word is placed in front, so taking it gives
back `s`. -/
theorem stepRunsDecodedCommand : Obligations.StepRunsDecodedCommand :=
  ⟨fun _ _ _ _ => step_legal, fun _ _ _ hw => step_legal rfl (decode_tableWord_of_decodeTableWord hw)⟩

/-- Settles O9: the reset input leaves the reset state with the later inputs still to come. -/
theorem resetInputLeavesResetState : Obligations.ResetInputLeavesResetState :=
  fun _ _ => step_reset

/-- Settles O10: with no input the step is idle. -/
theorem noInputNoChange : Obligations.NoInputNoChange :=
  fun _ => step_nil

/-- Settles O11: an idle step, a reset, a command and an illegal word each answer a next state. -/
theorem stepAlwaysAnswersNext : Obligations.StepAlwaysAnswersNext := by
  have hexec (i : Instr) (s : State) : ∃ t, exec i s = .next t := by
    obtain ⟨t, -, ht, -⟩ := exec_answers i s
    exact ⟨t, ht⟩
  refine ⟨fun s => ?_, hexec⟩
  obtain ⟨-, hstep⟩ | ⟨rest, -, hstep⟩ | ⟨w, rest, i, -, -, hstep⟩ | ⟨w, rest, -, -, hstep⟩ :=
    step_cases s <;> rw [hstep]
  · exact ⟨_, rfl⟩
  · exact ⟨_, rfl⟩
  · exact hexec i _
  · exact ⟨_, raise_eq .illegalCommand _⟩

/-- Settles O53: the slot is empty and nothing has been answered. -/
theorem invariantsHoldAtReset : Obligations.InvariantsHoldAtReset :=
  ⟨nofun, nofun, errInv_reset_pending []⟩

end Sys2Proof.Proofs

/-! # The path a divisor takes and its closed forms (`40_units.md` R56, R60, R65; `41_construct.md` R73 to R85) -/

namespace Sys2Proof.Arith

/-- Halving the difference first is what keeps the adder within 64 bits (R65). -/
theorem half_sub_add {n q : Nat} (hq : q ≤ n) : (n - q) / 2 + q = (n + q) / 2 := by
  omega

/-- An error of at least `2^L` leaves a remainder below half of `D` (`41_construct.md` R78). -/
theorem two_mul_mod_lt {D L u : Nat} (hhi : D < 2 ^ (L + 1)) (he : 2 ^ L ≤ D - u % D) : 2 * (u % D) < D := by
  omega

/-- The error `2^L` makes the multiplier a factor of `2^L * (2^64 + 1)` (`41_construct.md` R85). -/
theorem mul_div_succ_of_error_eq {D L : Nat} (hD : 0 < D) (he : D - 2 ^ (64 + L) % D = 2 ^ L) :
    D * (2 ^ (64 + L) / D + 1) = 2 ^ L * (2 ^ 64 + 1) := by
  rw [Nat.mul_comm, div_succ_mul hD, he, pow_add]
  ring

end Sys2Proof.Arith

namespace Sys2Proof.Machine

theorem flog2_of_between {d : Word} {h : d ≠ 0#64} {l : ShiftAmount} (hlo : 2 ^ l.toNat < d.toNat)
    (hhi : d.toNat < 2 ^ (l.toNat + 1)) : flog2 d h = l :=
  BitVec.eq_of_toNat_eq (eq_flog2_of_bounds h hlo.le hhi).symm

theorem ispow2_of_between {d : Word} {h : d ≠ 0#64} {l : ShiftAmount} (hlo : 2 ^ l.toNat < d.toNat)
    (hhi : d.toNat < 2 ^ (l.toNat + 1)) : ispow2 d h = false := by
  rw [Bool.eq_false_iff, ne_eq, ispow2_iff, flog2_of_between hlo hhi]
  exact hlo.ne'

theorem candidateExact_of_between {d : Word} {h : d ≠ 0#64} {l : ShiftAmount} (hlo : 2 ^ l.toNat < d.toNat)
    (hhi : d.toNat < 2 ^ (l.toNat + 1)) : candidateExact d h = true ↔ noAddCondition d.toNat l.toNat := by
  rw [candidateExact_iff, flog2_of_between hlo hhi]

/-- `ADD` records whether the candidate had to be doubled. -/
theorem construct_add {d : Word} {h : d ≠ 0#64} (hp : ispow2 d h = false) :
    (construct d h).add = !candidateExact d h := by
  cases he : candidateExact d h with
  | true => rw [construct_of_candidateExact hp he]; rfl
  | false => rw [construct_of_not_candidateExact hp he]; rfl

theorem Descriptor.addRow.mult_eq {d : Descriptor} (h : d.addRow) :
    d.mult.toNat + 2 ^ 64 = 2 * (2 ^ (64 + d.shift.toNat) / d.divisor.toNat) + 1 := by
  obtain ⟨-, hhi, hcond, -, -, hM, -⟩ := h
  rw [hM, ← Arith.two_mul_div (Arith.two_mul_mod_lt hhi (not_lt.mp hcond)), ← pow_succ', Nat.add_right_comm]

theorem Descriptor.not_powerRow_of_lt {d : Descriptor} (h : 2 ^ d.shift.toNat < d.divisor.toNat) : ¬ d.powerRow :=
  fun ⟨hdiv, _⟩ => h.ne' hdiv

theorem flog2_eq_zero_iff (d : Word) (h : d ≠ 0#64) : flog2 d h = 0#6 ↔ d = 1#64 := by
  refine ⟨fun hlog => ?_, fun hd => flog2_of_toNat_eq_two_pow (congrArg BitVec.toNat hd)⟩
  have hlo := toNat_pos_of_ne_zero h
  have hhi := lt_two_pow_flog2_succ d h
  rw [hlog] at hhi
  exact BitVec.eq_of_toNat_eq (Nat.le_antisymm (Nat.le_of_lt_succ hhi) hlo)

theorem ispow2_iff_exists (d : Word) (h : d ≠ 0#64) : ispow2 d h = true ↔ ∃ k, d.toNat = 2 ^ k := by
  refine ⟨fun hp => ⟨_, (ispow2_iff d h).mp hp⟩, fun ⟨k, hk⟩ => (ispow2_iff d h).mpr ?_⟩
  have hlog : k = (flog2 d h).toNat := eq_flog2_of_bounds h hk.ge (hk ▸ Nat.pow_lt_pow_succ (by decide))
  rw [← hlog, hk]

/-- The mask test: subtracting 1 clears the lowest set bit and sets those below it. -/
theorem ispow2_iff_mask (d : Word) (h : d ≠ 0#64) : ispow2 d h = true ↔ d &&& (d - 1#64) = 0#64 := by
  have hpos := toNat_pos_of_ne_zero h
  have hpred : (d - 1#64).toNat = d.toNat - 1 := BitVec.toNat_sub_of_le (BitVec.le_def.mpr hpos)
  rw [ispow2_iff_exists, ← BitVec.toNat_inj, BitVec.toNat_and, hpred]
  exact (Nat.and_sub_one_eq_zero_iff_isPowerOfTwo hpos.ne').symm

end Sys2Proof.Machine

namespace Sys2Proof.Proofs

open Sys2Proof.Machine

/-- Settles O18: the bounds on `D` fix `flog2`, the error term decides for the candidate, and the row gives `MULT`. -/
theorem fdnewNoAddPath : Obligations.FdnewNoAddPath := by
  intro s d l hlo hhi he
  have h : d ≠ 0#64 := ne_zero_of_toNat_pos (Nat.zero_lt_of_lt hlo)
  have hlog : flog2 d h = l := flog2_of_between hlo hhi
  obtain ⟨-, -, -, -, ha, hM, -⟩ :=
    construct_noAddRow (ispow2_of_between hlo hhi) ((candidateExact_of_between (h := h) hlo hhi).mpr he)
  rw [construct_shift, construct_divisor, hlog] at hM
  exact ⟨(construct d h).mult, hM, by rw [exec_fdnew_of_ne_zero h, construct_eq_fields, hlog, ha]⟩

/-- Settles O19: as on the no-add path, with the doubled candidate's row. -/
theorem fdnewAddPath : Obligations.FdnewAddPath := by
  intro s d l hlo hhi he
  have h : d ≠ 0#64 := ne_zero_of_toNat_pos (Nat.zero_lt_of_lt hlo)
  have hlog : flog2 d h = l := flog2_of_between hlo hhi
  have hexact : candidateExact d h = false :=
    Bool.eq_false_iff.mpr (mt (candidateExact_of_between hlo hhi).mp (not_lt.mpr he))
  have hrow := construct_addRow (ispow2_of_between hlo hhi) hexact
  have hM2 := hrow.mult_eq
  obtain ⟨-, -, -, -, ha, hM, -⟩ := hrow
  rw [construct_shift, construct_divisor, hlog] at hM hM2
  exact ⟨(construct d h).mult, hM2, hM, by rw [exec_fdnew_of_ne_zero h, construct_eq_fields, hlog, ha]⟩

/-- Settles O22: the remainder is between 1 and `D - 1`, so the subtraction is exact. -/
theorem errorTermMeaning : Obligations.ErrorTermMeaning := by
  intro d h hp
  obtain ⟨hrlo, hrhi⟩ := candidate_rem_bounds hp
  have he := errorTerm_toNat d h
  refine ⟨he, by omega, by omega, ?_⟩
  rw [he, candidate_rem_toNat, candidate_quot_toNat, Arith.div_succ_mul (toNat_pos_of_ne_zero h)]

/-- Settles O23: on the add path the remainder is below half of `D`. -/
theorem incrementNeverFires : Obligations.IncrementNeverFires := by
  intro d h hp he
  have hr := two_mul_candidate_rem_lt he
  obtain ⟨-, hqhi⟩ := candidate_quot_bounds hp
  obtain ⟨hgeu, hltu⟩ := Bool.or_eq_false_iff.mp (incrementTest_eq_false hr)
  refine ⟨twiceRem_toNat hr, hgeu, hltu, ?_⟩
  rw [doubledCandidate_toNat hr (by omega), candidate_quot_toNat]

/-- Settles O24: no row but the first holds of a power of two, and the condition on the error term separates the others. -/
theorem constructClosedForms : Obligations.ConstructClosedForms := by
  intro d h
  refine ⟨construct_divisor d h, construct_shift d h, construct_tabled d h, fun hrow => ?_, ?_, ?_, ?_⟩
  · simpa only [construct_shift, construct_divisor] using hrow.mult_eq
  · rintro ⟨hpower, hlo, -⟩
    exact Descriptor.not_powerRow_of_lt hlo hpower
  · rintro ⟨hpower, hlo, -⟩
    exact Descriptor.not_powerRow_of_lt hlo hpower
  · rintro ⟨⟨-, -, hcond, -⟩, -, -, hncond, -⟩
    exact hncond hcond

/-- Settles O25: the bounds are those of the two rows with a multiplier; the two tight cases are computed. -/
theorem multZeroOnlyForPowersOfTwo : Obligations.MultZeroOnlyForPowersOfTwo := by
  refine ⟨fun d h => ⟨construct_mult_eq_zero_iff d h, fun hp ha => ?_, fun hp ha => ?_⟩, by decide, by decide⟩
  · rw [construct_add hp, Bool.not_eq_false'] at ha
    obtain ⟨-, -, -, -, -, -, hmult⟩ := construct_noAddRow hp ha
    exact hmult
  · rw [construct_add hp, Bool.not_eq_true'] at ha
    obtain ⟨-, -, -, -, -, -, hodd, hmult⟩ := construct_addRow hp ha
    exact ⟨by omega, hmult, hodd⟩

/-- Settles O26: `SHIFT` is `flog2` on every path, and `flog2` is 0 below 2 only. -/
theorem shiftIsFloorLog : Obligations.ShiftIsFloorLog := by
  intro d h
  rw [construct_shift]
  exact ⟨rfl, flog2_eq_zero_iff d h, one_le_flog2⟩

/-- Settles O27: at `e = 2^L` the strict comparison fails, while R98 allows an error of up to `2^L`. -/
theorem strictBoundaryTakesAddPath : Obligations.StrictBoundaryTakesAddPath := by
  refine ⟨fun d h hp he => ?_, by decide, by decide, by decide, by decide⟩
  have hexact : candidateExact d h = false := by
    rw [candidateExact, Bool.eq_false_iff, ne_eq, ltu_iff, pow2_toNat]
    exact he.not_lt
  have hD := toNat_pos_of_ne_zero h
  rw [errorTerm_toNat, candidate_rem_toNat] at he
  rw [candidate_quot_toNat]
  exact ⟨by rw [construct_add hp, hexact]; rfl, Arith.mul_div_succ_of_error_eq hD he,
    fun n => Arith.magic_mul_div hD he.le n.isLt⟩

/-- Settles O55: `flog2` finds the exponent of a power of two, and the mask test is the library's; the values are
computed. -/
theorem ispowTwoIsExact : Obligations.IspowTwoIsExact :=
  ⟨fun d h => ⟨ispow2_iff_exists d h, ispow2_iff_mask d h⟩, by decide, by decide, by decide, by decide, by decide⟩

/-- Settles O59: with `q <= n` the subtraction does not wrap, and neither does the sum, which is at most `n`. -/
theorem caddIsHalfOfSum : Obligations.CaddIsHalfOfSum :=
  fun _ _ hq => ⟨BitVec.toNat_sub_of_le (BitVec.le_def.mpr hq), Arith.half_sub_add hq, by omega, cadd_true_toNat hq⟩

/-- Settles O60: quotient and remainder fit their words; in the engine's use they are the candidate's; the rest is
computed. -/
theorem wdivIsExact : Obligations.WdivIsExact := by
  refine ⟨fun l d h => ?_, fun d h hp => ?_, by decide, by decide, by decide⟩
  · have hquot := wdiv_quot_toNat l d h
    have hrem := wdiv_rem_toNat l d h
    refine ⟨hquot, hrem, ?_, ?_⟩
    · rw [hquot, hrem, Nat.div_add_mod']
    · rw [hrem]
      exact Nat.mod_lt _ (toNat_pos_of_ne_zero h)
  · obtain ⟨hqlo, hqhi⟩ := candidate_quot_bounds hp
    obtain ⟨hrlo, -⟩ := candidate_rem_bounds hp
    exact ⟨hqlo, Nat.lt_of_le_of_lt hqhi (by decide), hrlo⟩

end Sys2Proof.Proofs

/-! # What every step keeps of the slot, and the quotients (`10_state.md` R26, R27; `42_apply.md` R93, R98, R100) -/

namespace Sys2Proof.Machine

/-- What holds of every constructed descriptor stays true of the slot, since a step keeps the slot, puts a constructed
descriptor there, or empties it. -/
theorem step_keeps_slot {P : Descriptor → Prop} (hnew : ∀ d h, P (construct d h)) {s t : State}
    (hs : ∀ d, s.desc = some d → P d) (ht : step s = .next t) : ∀ d, t.desc = some d → P d := by
  intro d hd
  obtain hkeep | ⟨c, hc, -, -, hwritten⟩ | ⟨hempty, -⟩ := Proofs.onlyFdnewWritesDescriptor s t ht
  · exact hs d (hkeep.symm.trans hd)
  · cases hwritten.symm.trans hd
    exact hnew c hc
  · cases hempty.symm.trans hd

theorem quotient_construct_eq_iff {d : Word} {h : d ≠ 0#64} {n q : Word} :
    quotient (construct d h) n = q ↔ n.toNat / d.toNat = q.toNat := by
  rw [← BitVec.toNat_inj, quotient_construct_toNat]

theorem quotient_construct_of_lt {d : Word} {h : d ≠ 0#64} {n : Word} (hn : n.toNat < d.toNat) :
    quotient (construct d h) n = 0#64 :=
  quotient_construct_eq_iff.mpr (Nat.div_eq_of_lt hn)

theorem quotient_construct_self (d : Word) (h : d ≠ 0#64) : quotient (construct d h) d = 1#64 :=
  quotient_construct_eq_iff.mpr (Nat.div_self (toNat_pos_of_ne_zero h))

/-- With `SHIFT` 63 the divisor is at least `2^63`, and no dividend is twice that. -/
theorem quotient_construct_le_one {d : Word} {h : d ≠ 0#64} (hs : (construct d h).shift = 63#6) (n : Word) :
    (quotient (construct d h) n).toNat ≤ 1 := by
  have hlo := two_pow_flog2_le d h
  rw [← construct_shift, hs, show (63#6).toNat = 63 from rfl] at hlo
  have hn := n.isLt
  rw [quotient_construct_toNat, ← Nat.lt_succ_iff, Nat.div_lt_iff_lt_mul (toNat_pos_of_ne_zero h)]
  omega

end Sys2Proof.Machine

namespace Sys2Proof.Proofs

open Sys2Proof.Machine

/-- Settles O49: `FDNEW` alone writes the slot, and construction gives a descriptor of the table. -/
theorem descriptorTableKept : Obligations.DescriptorTableKept :=
  fun _ _ => step_keeps_slot construct_tabled

/-- Settles O50: `FDNEW` alone writes the slot, its divisor is not 0, and every descriptor of the table divides
exactly. -/
theorem exactQuotientKept : Obligations.ExactQuotientKept :=
  fun _ _ => step_keeps_slot fun d h => ⟨(construct_divisor d h).symm ▸ h, (construct_tabled d h).exact⟩

/-- Settles O31: the high product is at most the dividend, so halving the difference first gives the same floor. -/
theorem fddivAddPath : Obligations.FddivAddPath := by
  intro s d n hs hm ha
  have hq := quotient_add_toNat hm ha n
  have hle : d.mult.toNat * n.toNat / 2 ^ 64 ≤ n.toNat := mulhi_toNat d.mult n ▸ mulhi_le_right d.mult n
  refine ⟨quotient d n, hq, ?_, exec_fddiv_of_desc_some hs n⟩
  rw [hq, Arith.half_sub_add hle, Nat.div_div_eq_div_mul, pow_succ' 2 d.shift.toNat]

/-- Settles O34: every quotient is the floor, and the corner cases are floors. -/
theorem quotientCornerCases : Obligations.QuotientCornerCases := by
  refine ⟨fun d h => ⟨?_, fun n => quotient_construct_of_lt, quotient_construct_self d h,
    quotient_construct_toNat d h _, quotient_construct_le_one⟩, fun n => ?_, fun n => ?_⟩
  · exact quotient_construct_of_lt (toNat_pos_of_ne_zero h)
  · exact quotient_construct_eq_iff.mpr (Nat.div_one _)
  · split_ifs with hn
    · subst hn
      exact quotient_construct_self _ _
    · exact quotient_construct_of_lt (by bv_omega)

end Sys2Proof.Proofs
